-- ==== Sys2Proof/Word.lean ====
section
/-! DEFINITION. The word types of FDENC: the widths of R5 and the integer-to-bits map of R9. -/

namespace Sys2Proof

/-- `bits8` of R9. -/
abbrev Byte := BitVec 8

/-- An encoded field, `FIELD_BITS` = 24 wide (R5, R60). -/
abbrev Bits24 := BitVec 24

/-- An integer operand, `INT_BITS` = 32 wide (R5). -/
abbrev Bits32 := BitVec 32

/-- The operand field of a short command word, `OPD_BITS` = 64 wide (R5). -/
abbrev Bits64 := BitVec 64

/-- `to24` of R9: two's-complement truncation of an integer to 24 bits. -/
abbrev to24 (z : Int) : Bits24 := BitVec.ofInt 24 z

/-- `to8` of R9. -/
abbrev to8 (z : Int) : Byte := BitVec.ofInt 8 z

end Sys2Proof
end

