-- ==== Sys2Proof/Config.lean ====
section
/-! DEFINITION. The parameters of FDENC (R5) and the two values the spec leaves open. -/

namespace Sys2Proof

/-- The kind of a floating-point operand: `ROT` or `POS` (R96, R101). -/
inductive FpKind where
  /-- a rotation, an angle in degrees (R90) -/
  | rot
  /-- a position, a distance (R91) -/
  | pos
deriving DecidableEq, Repr

namespace Config

/-- `FRAME_LEN` (R5). -/
def frameLen : Nat := 29
/-- `MARKER` (R5). -/
def marker : Byte := 0xD1#8
/-- `CK_INIT` (R5). -/
def ckInit : Int := 64
/-- `CK_COVER` (R5): the checksum byte covers offsets 0 to 27. -/
def ckCover : Nat := 28
/-- `RSV_OFF` (R5). -/
def rsvOff : Nat := 26
/-- `RSV_LEN` (R5). -/
def rsvLen : Nat := 2
/-- `CK_OFF` (R5). -/
def ckOff : Nat := 28
/-- The eight offsets at which a field command is performed (R98, R151): `FIELD_BYTES` = 3 apart,
`N_ROT + N_POS + N_INT` = 8 of them (R5, R62). -/
def fieldOffsets : List Nat := [2, 5, 8, 11, 14, 17, 20, 23]

/-- `ROT_K` and `POS_K` (R5): the base-2 logarithm of the scale. -/
def scaleExp : FpKind → Nat
  | .rot => 15
  | .pos => 6

/-- `ROT_SCALE` and `POS_SCALE` (R5). -/
def scale : FpKind → Nat
  | .rot => 32768
  | .pos => 64

/-- `NONFINITE` (R5, R101): the field of a rotation or position operand that is a NaN, an infinity, or whose
scaled product overflows binary64. Nothing is known of it but its type (log 4). -/
opaque nonfinite : FpKind → Bits64 → Bits24

/-- `UNSPECIFIED_BYTE` (R42, U2): the byte that the `n`-th read of an undefined location returns. The index makes
each draw a fresh value (log 3). -/
opaque unspecifiedByte : Nat → Byte

end Config
end Sys2Proof
end

