-- ==== Sys2Proof/Syntax.lean ====
section
/-! DEFINITION. Command words, formats, opcodes and the eight commands of FDENC-CMD version 1 (R64 to R66). -/

namespace Sys2Proof

/-- A command word as the command port delivers it: whole and delimited, of any length (R70). Bit 0 is the least
significant bit (R9). -/
structure CmdWord where
  /-- length of the word in bits -/
  width : Nat
  /-- the bits -/
  bits : BitVec width
deriving DecidableEq, Repr

/-- The two formats (R64, R65). -/
inductive Format where
  /-- format S, the short command word, 72 bits -/
  | s
  /-- format B, the build command word, 488 bits -/
  | b
deriving DecidableEq, Repr

/-- The eight opcodes (R66). -/
inductive Opcode where
  | start | encrot | encpos | encint | rsvd | csum | chk | build
deriving DecidableEq, Repr

/-- The eight commands, each with every operand field of its word, the ignored bits of R69 among them, so that a
command and its word determine each other. -/
inductive Instr where
  /-- `START`: begin a frame (R110) -/
  | start (opd : Bits64)
  /-- `ENCROT`: append one rotation field (R98) -/
  | encrot (opd : Bits64)
  /-- `ENCPOS`: append one position field (R99) -/
  | encpos (opd : Bits64)
  /-- `ENCINT`: append one integer field (R100) -/
  | encint (opd : Bits64)
  /-- `RSVD`: append the two reserved zero bytes (R111) -/
  | rsvd (opd : Bits64)
  /-- `CSUM`: compute the checksum byte and append it (R133) -/
  | csum (opd : Bits64)
  /-- `CHK`: evaluate the checksum function over the finished frame (R134) -/
  | chk (opd : Bits64)
  /-- `BUILD`: build a whole frame (R112) -/
  | build (cam : Bits32) (pitch yaw roll x y z : Bits64) (zoom focus : Bits32)
deriving DecidableEq, Repr

/-- The opcode of a command (R66). -/
def Instr.opcode : Instr → Opcode
  | .start _ => .start
  | .encrot _ => .encrot
  | .encpos _ => .encpos
  | .encint _ => .encint
  | .rsvd _ => .rsvd
  | .csum _ => .csum
  | .chk _ => .chk
  | .build _ _ _ _ _ _ _ _ _ => .build

/-- Why a command word spells no command (R68, R70). -/
inductive DecodeError where
  /-- shorter than 8 bits: the word has no opcode (R70) -/
  | tooShort (width : Nat)
  /-- opcode 0x00 or 0x09 to 0xFF (R68) -/
  | reservedOpcode (code : Byte)
  /-- a legal opcode in a word that is not of its format's length (R70) -/
  | wrongLength (op : Opcode) (width : Nat)
deriving DecidableEq, Repr

end Sys2Proof
end

