-- ==== Sys2Proof/WellFormed.lean ====
section
/-! DEFINITION. Which command words are legal, which commands are well formed, and the form an assembler gives them.
Written in the numbers of R64 to R70 and apart from the decoder, so that the two can be compared. -/

namespace Sys2Proof

/-- The top 8 bits of a word (R66). Meaningful for words of at least 8 bits. -/
def CmdWord.topByte (w : CmdWord) : Byte := w.bits.extractLsb' (w.width - 8) 8

/-- A word is legal when its length is that of its opcode's format: 72 bits for opcodes 0x01 to 0x07, 488 bits for
0x08 (R68, R70). -/
def CmdWord.legal (w : CmdWord) : Bool :=
  (w.width == 72 && 1 ≤ w.topByte.toNat && w.topByte.toNat ≤ 7) || (w.width == 488 && w.topByte.toNat == 8)

/-- Every command is well formed: an operand field may hold any value, and none is rejected (R69, R150). The widths
of the fields are those of `Instr`'s constructors, so there is nothing left to check. -/
def Instr.wellFormed : Instr → Bool
  | .start _ => true
  | .encrot _ => true
  | .encpos _ => true
  | .encint _ => true
  | .rsvd _ => true
  | .csum _ => true
  | .chk _ => true
  | .build _ _ _ _ _ _ _ _ _ => true

/-- The form in which an assembler writes a command (R69, R73): operand bits that no command reads are zero, and
`ENCINT`'s upper half is the sign extension of its integer. `START`'s operand is the camera integer modulo `2^64`
and a `BUILD` camera modulo `2^32`, so any value may stand there (log 9). -/
def Instr.assemblerForm : Instr → Bool
  | .start _ => true
  | .encrot _ => true
  | .encpos _ => true
  | .encint opd => opd == (opd.setWidth 32).signExtend 64
  | .rsvd opd => opd == 0#64
  | .csum opd => opd == 0#64
  | .chk opd => opd == 0#64
  | .build _ _ _ _ _ _ _ _ _ => true

end Sys2Proof
end

