-- ==== Sys2Proof/Decode.lean ====
section
/-! DEFINITION. The decoder of command words, total on words of any length (R71), and the encoder. -/

namespace Sys2Proof

/-- The opcode value of each command (R66). -/
def Opcode.code : Opcode → Byte
  | .start => 0x01#8
  | .encrot => 0x02#8
  | .encpos => 0x03#8
  | .encint => 0x04#8
  | .rsvd => 0x05#8
  | .csum => 0x06#8
  | .chk => 0x07#8
  | .build => 0x08#8

/-- The opcode map read the other way; every value but 0x01 to 0x08 is reserved (R66, R68). -/
def opcodeOf (code : Byte) : Option Opcode :=
  match code.toNat with
  | 1 => some .start
  | 2 => some .encrot
  | 3 => some .encpos
  | 4 => some .encint
  | 5 => some .rsvd
  | 6 => some .csum
  | 7 => some .chk
  | 8 => some .build
  | _ => none

/-- The format of each command: only `BUILD` uses format B (R64, R65, R66). -/
def Opcode.format : Opcode → Format
  | .build => .b
  | _ => .s

/-- The length of a word of each format (R64, R65). -/
def Format.length : Format → Nat
  | .s => 72
  | .b => 488

/-- The slice `w[lo + len - 1 : lo]` (R9). -/
def CmdWord.field (w : CmdWord) (lo len : Nat) : BitVec len := w.bits.extractLsb' lo len

/-- The operand fields of a word whose opcode and length are already known to fit (R64, R65). -/
def operandsOf (op : Opcode) (w : CmdWord) : Instr :=
  match op with
  | .start => .start (w.field 0 64)
  | .encrot => .encrot (w.field 0 64)
  | .encpos => .encpos (w.field 0 64)
  | .encint => .encint (w.field 0 64)
  | .rsvd => .rsvd (w.field 0 64)
  | .csum => .csum (w.field 0 64)
  | .chk => .chk (w.field 0 64)
  | .build => .build (w.field 448 32) (w.field 384 64) (w.field 320 64) (w.field 256 64)
      (w.field 192 64) (w.field 128 64) (w.field 64 64) (w.field 32 32) (w.field 0 32)

/-- Decoding (R66, R68, R70, R71): the top 8 bits select the command, then the length is checked against its
format. -/
def decode (w : CmdWord) : Except DecodeError Instr :=
  if w.width < 8 then .error (.tooShort w.width)
  else
    match opcodeOf (w.field (w.width - 8) 8) with
    | none => .error (.reservedOpcode (w.field (w.width - 8) 8))
    | some op =>
      if w.width = op.format.length then .ok (operandsOf op w)
      else .error (.wrongLength op w.width)

/-- A format S word (R64): opcode in bits 71:64, operand in bits 63:0. -/
def wordS (op : Opcode) (opd : Bits64) : CmdWord := ⟨72, op.code ++ opd⟩

/-- Encoding (R64, R65, R66): the word that spells a command. -/
def encode : Instr → CmdWord
  | .start opd => wordS .start opd
  | .encrot opd => wordS .encrot opd
  | .encpos opd => wordS .encpos opd
  | .encint opd => wordS .encint opd
  | .rsvd opd => wordS .rsvd opd
  | .csum opd => wordS .csum opd
  | .chk opd => wordS .chk opd
  | .build cam pitch yaw roll x y z zoom focus =>
      ⟨488, Opcode.build.code ++ cam ++ pitch ++ yaw ++ roll ++ x ++ y ++ z ++ zoom ++ focus⟩

/-- The command word of `nbits` bits whose value is `w`. -/
def CmdWord.ofNat (nbits w : Nat) : CmdWord := ⟨nbits, BitVec.ofNat nbits w⟩

/-- What the decoder reads from the table's row of `nbits` bits with value `w`: a command word is one bit-vector and
its bits are numbered as the table numbers them (R64, R65, R75; log 14). -/
def decodeTableWord (nbits w : Nat) : Option Instr := (decode (CmdWord.ofNat nbits w)).toOption

end Sys2Proof
end

