-- ==== Sys2Proof/Machine/State.lean ====
section
/-! DEFINITION. The state of one FDENC (R20), the host's events, the ways a step can stop, and the state after reset. -/

namespace Sys2Proof.Machine

/-- The defined bytes of `BUF`, as (offset, byte) cells in one canonical form: offsets strictly rising. An offset
that is not listed is undefined, that is, it holds no value (R21, R31, R33; log 5), so no entry can equal what an
unlisted offset reads as. -/
abbrev Memory := List Host.Cell

/-- The canonical form: offsets strictly rising, each one of the 29 offsets 0 to 28 (R21, R40). -/
def Memory.wf : Memory → Bool
  | [] => true
  | [c] => decide (c.1 < Config.frameLen)
  | c :: d :: rest => decide (c.1 < d.1) && Memory.wf (d :: rest)

/-- The host's three moves toward FDENC (R6, R176). -/
inductive HostEvent where
  /-- deliver one whole command word on the command port -/
  | command (w : CmdWord)
  /-- read one location through the read port, 5-bit address (R42) -/
  | read (addr : BitVec 5)
  /-- assert reset (R170) -/
  | reset
deriving DecidableEq, Repr

/-- The two exceptions (R151 to R153). Neither is a Lean fault: raising one gives a next state. -/
inductive Exception where
  /-- `SeqErr`: a command's legality test on `WP` failed (R151) -/
  | seqErr
  /-- `IllCmd`: a word that spells no command (R152) -/
  | illCmd
deriving DecidableEq, Repr

/-- The architectural state (R20) and three fields of the model's own for the stream of host events (logs 1, 2, 3). -/
structure State where
  /-- the defined bytes of `BUF[0..28]` (R21) -/
  buf : Memory
  /-- `WP`, the write position (R22) -/
  wp : BitVec 5
  /-- `ACC`, the result of the last run of the checksum engine (R23) -/
  acc : Byte
  /-- `SEQERR`, sticky (R24) -/
  seqErr : Bool
  /-- `ILLCMD`, sticky (R24) -/
  illCmd : Bool
  /-- MODEL: host events not yet taken, oldest first (log 1) -/
  pending : List HostEvent
  /-- MODEL: the bytes the read port has returned, oldest first (R175; log 2) -/
  returned : List Byte
  /-- MODEL: how many unspecified bytes the read port has returned; indexes `Config.unspecifiedByte` (log 3) -/
  draws : Nat
deriving DecidableEq, Repr

/-- Why the machine stops. -/
inductive Fault where
  /-- Raised by `CSUM` and `CHK` when the checksum engine reads a byte of `BUF` that nothing has written. The spec has
  no such state (R21: every byte below `WP` is defined), no run from reset reaches one, so this is SAFE (log 6). -/
  | undefinedBufferByte
deriving DecidableEq, Repr

/-- Why the machine gives an instruction no meaning. -/
inductive Refusal where
  /-- Raised by an arm of `exec` whose instruction has no meaning yet. No arm does: SAFE. -/
  | notModelled (mnemonic : String)
deriving DecidableEq, Repr

/-- The outcome of a step of this machine. -/
abbrev Result := Host.Outcome State Fault Refusal

/-- The state after reset (R31): `WP = 0`, `ACC = 0x40`, both flags 0, no byte of `BUF` defined. The model's own
fields are empty (logs 1, 2, 3). -/
def State.reset : State where
  buf := []
  wp := 0#5
  acc := 0x40#8
  seqErr := false
  illCmd := false
  pending := []
  returned := []
  draws := 0

end Sys2Proof.Machine
end

