-- ==== Sys2Proof/Machine/Flags.lean ====
section
/-! DEFINITION. The status flags and the three registers that are read-only views of the state (R25). FDENC has no
condition codes (R25) and no floating-point flags (R105). -/

namespace Sys2Proof.Machine

/-- `VALID` (R25): 1 exactly when `WP = 29`, a pure function of `WP`. -/
def State.valid (s : State) : Bool := s.wp == 29#5

/-- The cause code of an exception, which is its bit position in `STATUS` (R153). -/
def Exception.causeCode : Exception → Nat
  | .seqErr => 1
  | .illCmd => 2

/-- `STATUS` (R25, R42): `{0b00000, ILLCMD, SEQERR, VALID}`. -/
def statusByte (s : State) : Byte :=
  0b00000#5 ++ BitVec.ofBool s.illCmd ++ BitVec.ofBool s.seqErr ++ BitVec.ofBool s.valid

/-- `WPR` (R25, R42): `{0b000, WP}`. -/
def wprByte (s : State) : Byte := 0b000#3 ++ s.wp

/-- `ACCR` (R25, R42): `ACC`. -/
def accrByte (s : State) : Byte := s.acc

end Sys2Proof.Machine
end

