-- ==== Sys2Proof/Machine/Ops.lean ====
section
/-! DEFINITION. The named operations over the buffer, the registers, the exceptions, the read port and reset. -/

namespace Sys2Proof.Machine

/-- The byte at an offset, if it is defined. -/
def Memory.read : Memory → Nat → Option Byte
  | [], _ => none
  | (k, v) :: rest, a => if a = k then some v else Memory.read rest a

/-- Write one byte, keeping the offsets strictly rising. -/
def Memory.write : Memory → Nat → Byte → Memory
  | [], a, b => [(a, b)]
  | (k, v) :: rest, a, b =>
    if a < k then (a, b) :: (k, v) :: rest
    else if a = k then (a, b) :: rest
    else (k, v) :: Memory.write rest a b

/-- `MemWrite(addr, n, v)` (R10): the bytes of a sequence at consecutive offsets. -/
def Memory.writeSeq : Memory → Nat → List Byte → Memory
  | m, _, [] => m
  | m, a, b :: rest => Memory.writeSeq (Memory.write m a b) (a + 1) rest

/-- The bytes at the `n` offsets from `a` on, if all of them are defined. -/
def Memory.readSeq (m : Memory) : Nat → Nat → Option (List Byte)
  | _, 0 => some []
  | a, n + 1 =>
    match m.read a, Memory.readSeq m (a + 1) n with
    | some b, some rest => some (b :: rest)
    | _, _ => none

/-- `Append(s)` (R43): the bytes go to `BUF[WP]` and on, then `WP <- WP + n`. Its precondition `WP + n <= 29` is
the callers' legality test (R151), so it cannot fail. -/
def append (bs : List Byte) (s : State) : State :=
  { s with buf := s.buf.writeSeq s.wp.toNat bs, wp := s.wp + BitVec.ofNat 5 bs.length }

/-- `WP <- 0` at the start of a new frame (R110, R112): no byte is below `WP` any more, so none is defined (R21). -/
def beginFrame (s : State) : State := { s with buf := [], wp := 0#5 }

/-- `ACC <- v` (R23). -/
def setAcc (v : Byte) (s : State) : State := { s with acc := v }

/-- TAKING AN EXCEPTION (R151, R152, R156): the command is dropped, the exception's sticky flag becomes 1, and no
other state element changes; control goes nowhere. There is no return from it (R157). -/
def raise : Exception → State → State
  | .seqErr, s => { s with seqErr := true }
  | .illCmd, s => { s with illCmd := true }

/-- The checksum engine's read of the prefix `BUF[0..n]` (R56), given to `k`. -/
def withPrefix (n : Nat) (s : State) (k : List Byte → State) : Result :=
  match s.buf.readSeq 0 n with
  | some bs => .next (k bs)
  | none => .fault .undefinedBufferByte

/-- What a read returns (R41, R42); `none` stands for `UNSPECIFIED_BYTE`. -/
def portByte (addr : BitVec 5) (s : State) : Option Byte :=
  if addr.toNat ≤ 28 then
    if addr.toNat < s.wp.toNat then s.buf.read addr.toNat else none
  else if addr = 0x1D#5 then some (statusByte s)
  else if addr = 0x1E#5 then some (wprByte s)
  else some (accrByte s)

/-- The host receives a byte from the read port (R175; log 2). -/
def giveByte (b : Byte) (s : State) : State := { s with returned := s.returned ++ [b] }

/-- The host receives an unspecified byte: a fresh free value (R42, U2; log 3). -/
def giveUnspecified (s : State) : State :=
  { s with returned := s.returned ++ [Config.unspecifiedByte s.draws], draws := s.draws + 1 }

/-- `MemRead(addr, 1)` (R42): one byte goes to the host and no state element of R20 changes. -/
def memRead (addr : BitVec 5) (s : State) : State :=
  match portByte addr s with
  | some b => giveByte b s
  | none => giveUnspecified s

/-- The reset event (R170): every element of R20 takes its value of R31; what belongs to the host stays. -/
def resetEvent (s : State) : State :=
  { State.reset with pending := s.pending, returned := s.returned, draws := s.draws }

/-- The sequencer has taken the oldest pending event; `rest` are the others (R49; log 1). -/
def takeEvent (rest : List HostEvent) (s : State) : State := { s with pending := rest }

/-- A valid frame as the host takes it for sending: the 29 bytes in offset order when `VALID` is 1 (R55, R176). -/
def takeFrame (s : State) : Option (List Byte) :=
  if s.valid then s.buf.readSeq 0 Config.frameLen else none

end Sys2Proof.Machine
end

