-- ==== Sys2Proof/Machine/Operands.lean ====
section
/-! DEFINITION. The operand forms of R67: binary64 angles and distances, 32-bit integers, camera identifiers, and
the emission of a field. The exact-arithmetic reading of a binary64 operand (R90, R91, R95) stands beside the
integer procedure that the machine runs (R96). -/

namespace Sys2Proof.Machine

/-! ### The binary64 layout (R95) -/

/-- Sign bit `d[63]`. -/
def fpSign (d : Bits64) : Bool := d.getLsbD 63
/-- Biased exponent `u11(d[62:52])`. -/
def fpExp (d : Bits64) : Nat := (d.extractLsb' 52 11).toNat
/-- Trailing significand `u52(d[51:0])`. -/
def fpFrac (d : Bits64) : Nat := (d.extractLsb' 0 52).toNat
/-- Neither a NaN nor an infinity (R9, R95). -/
def fpFinite (d : Bits64) : Bool := fpExp d != 2047
/-- `neg(d)` of R104: `d` with its sign bit flipped. -/
def fpNeg (d : Bits64) : Bits64 := d ^^^ (1#64 <<< 63)

/-- `real(d)` (R95): the exact rational value of a finite operand. -/
def real (d : Bits64) : ℚ :=
  (if fpSign d then -1 else 1) *
    (if fpExp d = 0 then (fpFrac d : ℚ) * 2 ^ (-1074 : ℤ)
     else ((2 ^ 52 + fpFrac d : ℕ) : ℚ) * 2 ^ ((fpExp d : ℤ) - 1075))

/-- `trunc(q)` (R9): round toward zero. -/
def trunc (q : ℚ) : ℤ := if 0 ≤ q then ⌊q⌋ else ⌈q⌉

/-- The scaled value before reduction modulo `2^24` (R12): `trunc(real(d) * 2^k)`. -/
def scaledValue (kind : FpKind) (d : Bits64) : ℤ := trunc (real d * (Config.scale kind : ℚ))

/-- Operands that R90 and R91 cover: finite, and the floating-point product is finite (R94). -/
abbrev Covered (kind : FpKind) (d : Bits64) : Prop :=
  fpFinite d = true ∧ |real d| * (Config.scale kind : ℚ) < 2 ^ 1024

/-- `in_range64(d, k)` (R102): the truncated product fits a 64-bit signed integer. -/
abbrev InRange64 (kind : FpKind) (d : Bits64) : Prop := |scaledValue kind d| < 2 ^ 63

/-! ### The field functions -/

/-- The low 24 bits of the scaled magnitude `M * 2^sh` (R96). -/
def mag24 (m : Nat) (sh : Int) : Nat :=
  if 24 ≤ sh then 0
  else if 0 ≤ sh then m * 2 ^ sh.toNat % 2 ^ 24
  else if -53 < sh then m / 2 ^ (-sh).toNat % 2 ^ 24
  else 0

/-- `fp_field(kind, d)` (R96): integer operations only; `NONFINITE` for NaN, infinity and an overflowing product
(R101). -/
def fpField (kind : FpKind) (d : Bits64) : Bits24 :=
  if fpExp d = 2047 then Config.nonfinite kind d
  else if 2047 ≤ fpExp d + Config.scaleExp kind then Config.nonfinite kind d
  else if fpExp d = 0 then 0#24
  else
    let mag := mag24 (2 ^ 52 + fpFrac d) ((fpExp d : Int) - 1075 + Config.scaleExp kind)
    if fpSign d then BitVec.ofNat 24 (2 ^ 24 - mag) else BitVec.ofNat 24 mag

/-- `rot_field(d)` (R90, R96, R101). -/
def rotField (d : Bits64) : Bits24 := fpField .rot d
/-- `pos_field(d)` (R91, R96, R101). -/
def posField (d : Bits64) : Bits24 := fpField .pos d
/-- `int_field(v)` (R92): `v[23:0]`. -/
def intField (v : Bits32) : Bits24 := v.extractLsb' 0 24

/-- `ENCINT`'s operand `opd[31:0]`; `opd[63:32]` is not read (R67, R69). -/
def intOperand (opd : Bits64) : Bits32 := opd.extractLsb' 0 32

/-- Byte 1 of a frame from a camera operand of any width: its bits 7:0 (R116). -/
def cameraByte {w : Nat} (cam : BitVec w) : Byte := cam.extractLsb' 0 8

/-- `be3(f)` (R9, R93): three bytes, most significant first, by shift and mask. -/
def be3 (f : Bits24) : List Byte :=
  [((f >>> 16) &&& 0xFF#24).setWidth 8, ((f >>> 8) &&& 0xFF#24).setWidth 8, (f &&& 0xFF#24).setWidth 8]

/-- What a field represents (R61): `s24(f) / 2^k`. -/
def fieldValue (kind : FpKind) (f : Bits24) : ℚ := (f.toInt : ℚ) / (Config.scale kind : ℚ)

/-- The legality test of the three field commands (R98 to R100): `WP` is at one of the eight field offsets. -/
def atFieldOffset (wp : BitVec 5) : Bool := Config.fieldOffsets.contains wp.toNat

/-- What the three field commands share (R98 to R100): at a field offset the three bytes of the field are appended,
anywhere else the command is dropped. -/
def appendField (f : Bits24) (s : State) : State :=
  if atFieldOffset s.wp then append (be3 f) s else raise .seqErr s

end Sys2Proof.Machine
end

