-- ==== Sys2Proof/Machine/FieldEncoder.lean ====
section
/-! DEFINITION. The field encoder's commands: ENCROT, ENCPOS, ENCINT. -/

namespace Sys2Proof.Machine

/-- `ENCROT angle` (R98). -/
def execEncrot (opd : Bits64) (s : State) : Result := .next (appendField (rotField opd) s)

/-- `ENCPOS distance` (R99). -/
def execEncpos (opd : Bits64) (s : State) : Result := .next (appendField (posField opd) s)

/-- `ENCINT value` (R100). -/
def execEncint (opd : Bits64) (s : State) : Result := .next (appendField (intField (intOperand opd)) s)

end Sys2Proof.Machine
end

