-- ==== Sys2Proof/Machine/Checksum.lean ====
section
/-! DEFINITION. The checksum engine: the function `cksum` and the commands CSUM and CHK. -/

namespace Sys2Proof.Machine

/-- The accumulator of `cksum` after a byte sequence, a mathematical integer (R130): start at 64, subtract each byte
read as a signed 8-bit value. -/
def cksumAcc (bs : List Byte) : Int := bs.foldl (fun acc b => acc - b.toInt) Config.ckInit

/-- `cksum(b)` (R130): the truncated remainder by 256, corrected when negative. -/
def cksum (bs : List Byte) : Byte :=
  let r := (cksumAcc bs).tmod 256
  to8 (if r < 0 then r + 256 else r)

/-- The implementation R132 allows: an 8-bit accumulator that wraps at every subtraction, started at 0x40. -/
def cksumWrapping (bs : List Byte) : Byte := bs.foldl (fun acc b => acc - b) 0x40#8

/-- `CSUM` (R133): the checksum of the 28 bytes before `WP = 28` is appended and goes to `ACC`. -/
def execCsum (_opd : Bits64) (s : State) : Result :=
  if s.wp = 28#5 then
    withPrefix Config.ckCover s fun bs => setAcc (cksum bs) (append [cksum bs] s)
  else .next (raise .seqErr s)

/-- `CHK` (R134): the checksum function over all 29 bytes goes to `ACC`. -/
def execChk (_opd : Bits64) (s : State) : Result :=
  if s.wp = 29#5 then
    withPrefix Config.frameLen s fun bs => setAcc (cksum bs) s
  else .next (raise .seqErr s)

end Sys2Proof.Machine
end

