-- ==== Sys2Proof/Machine/FrameAssembler.lean ====
section
/-! DEFINITION. The frame assembler: the frame as a pure function (R117) and the commands START, RSVD, BUILD. -/

namespace Sys2Proof.Machine

/-- The 28 bytes before the checksum (R117, R62). -/
def body (cam : Bits32) (pitch yaw roll x y z : Bits64) (zoom focus : Bits32) : List Byte :=
  [Config.marker, cameraByte cam]
    ++ be3 (rotField pitch) ++ be3 (rotField yaw) ++ be3 (rotField roll)
    ++ be3 (posField x) ++ be3 (posField y) ++ be3 (posField z)
    ++ be3 (intField zoom) ++ be3 (intField focus)
    ++ [0x00#8, 0x00#8]

/-- The 29-byte frame (R117). -/
def frame (cam : Bits32) (pitch yaw roll x y z : Bits64) (zoom focus : Bits32) : List Byte :=
  body cam pitch yaw roll x y z zoom focus ++ [cksum (body cam pitch yaw roll x y z zoom focus)]

/-- `START cam` (R110): legal in every state. -/
def execStart (opd : Bits64) (s : State) : Result :=
  .next (append [Config.marker, cameraByte opd] (beginFrame s))

/-- `RSVD` (R111): the two reserved zero bytes, only at offset 26. -/
def execRsvd (_opd : Bits64) (s : State) : Result :=
  .next (if s.wp = BitVec.ofNat 5 Config.rsvOff then append [0x00#8, 0x00#8] s else raise .seqErr s)

/-- `BUILD` (R112): a whole frame, legal in every state; `ACC` takes the checksum byte `F[28]`. -/
def execBuild (cam : Bits32) (pitch yaw roll x y z : Bits64) (zoom focus : Bits32) (s : State) : Result :=
  .next
    (setAcc (cksum (body cam pitch yaw roll x y z zoom focus))
      (append (frame cam pitch yaw roll x y z zoom focus) (beginFrame s)))

end Sys2Proof.Machine
end

