-- ==== Sys2Proof/Machine/Dispatch.lean ====
section
/-! DEFINITION. One arm per command. -/

namespace Sys2Proof.Machine

def exec (i : Instr) (s : State) : Host.Outcome State Fault Refusal :=
  match i with
  | .start opd => Sys2Proof.Machine.execStart opd s
  | .encrot opd => Sys2Proof.Machine.execEncrot opd s
  | .encpos opd => Sys2Proof.Machine.execEncpos opd s
  | .encint opd => Sys2Proof.Machine.execEncint opd s
  | .rsvd opd => Sys2Proof.Machine.execRsvd opd s
  | .csum opd => Sys2Proof.Machine.execCsum opd s
  | .chk opd => Sys2Proof.Machine.execChk opd s
  | .build cam pitch yaw roll x y z zoom focus => Sys2Proof.Machine.execBuild cam pitch yaw roll x y z zoom focus s

end Sys2Proof.Machine
end

