-- ==== Sys2Proof/Machine/Port.lean ====
section
/-! DEFINITION. What FDENC does with each host event, and the event at the head of the stream. -/

namespace Sys2Proof.Machine

/-- A command word is delivered: decoding comes first (R155). A word that spells no command raises `IllCmd` (R152),
any other is executed. -/
def deliver (w : CmdWord) (s : State) : Result :=
  match decode w with
  | .ok i => exec i s
  | .error _ => .next (raise .illCmd s)

/-- One host event, atomically (R6, R49). -/
def hostEvent (e : HostEvent) (s : State) : Result :=
  match e with
  | .command w => deliver w s
  | .read addr => .next (memRead addr s)
  | .reset => .next (resetEvent s)

/-- The sequencer takes the oldest pending event (R49). With none pending the state does not change (R7, R166;
log 8). -/
def nextEvent (s : State) : Result :=
  match s.pending with
  | [] => .next s
  | e :: rest => hostEvent e (takeEvent rest s)

/-- A command word of `nbits` bits with value `w` becomes the next event. -/
def deliverNext (nbits w : Nat) (s : State) : State :=
  { s with pending := .command (CmdWord.ofNat nbits w) :: s.pending }

end Sys2Proof.Machine
end

