-- ==== Sys2Proof/Machine/Step.lean ====
section
/-! DEFINITION. One step: one host event. -/

namespace Sys2Proof.Machine

/-- One step of the machine: the oldest pending host event (R6, R49). -/
def step (s : State) : Host.Outcome State Fault Refusal := nextEvent s

/-- The state `s` with the command word of `nbits` bits and value `w` as the next host event, so that the very next
step decodes and executes it. FDENC fetches nothing (R27): this stands for the host's delivery (log 1). -/
def State.withFetchWord (s : State) (nbits w : Nat) : State := deliverNext nbits w s

end Sys2Proof.Machine
end

