-- ==== Sys2Proof/Machine/Assembler.lean ====
section
/-! DEFINITION. The assembler of R72 to R74: one command per line, integer and floating-point literals, and the
pseudo-instruction FRAME. Total on any characters; `none` is an assembler error. What R72 and R73 leave open of the
syntax is in log 10. -/

namespace Sys2Proof.Machine

/-! ### Commands from operand values (R72 to R74) -/

/-- `START cam`: the integer modulo `2^64` (R73). -/
def asmStart (cam : Int) : Instr := .start (BitVec.ofInt 64 cam)

/-- `ENCINT value`: the integer modulo `2^32` in `opd[31:0]`, copies of bit 31 above it (R73). -/
def asmEncint (value : Int) : Instr := .encint ((BitVec.ofInt 32 value).signExtend 64)

/-- `BUILD cam, pitch, yaw, roll, x, y, z, zoom, focus`: integers modulo `2^32` (R73). -/
def asmBuild (cam : Int) (pitch yaw roll x y z : Bits64) (zoom focus : Int) : Instr :=
  .build (BitVec.ofInt 32 cam) pitch yaw roll x y z (BitVec.ofInt 32 zoom) (BitVec.ofInt 32 focus)

/-- The eleven commands of `FRAME cam, pitch, yaw, roll, x, y, z, zoom, focus` (R74). -/
def asmFrame (cam : Int) (pitch yaw roll x y z : Bits64) (zoom focus : Int) : List Instr :=
  [asmStart cam, .encrot pitch, .encrot yaw, .encrot roll, .encpos x, .encpos y, .encpos z,
    asmEncint zoom, asmEncint focus, .rsvd 0#64, .csum 0#64]

/-! ### Literals (R73) -/

/-- The value of a decimal digit. -/
def decDigit (c : Char) : Option Nat :=
  if '0'.toNat ≤ c.toNat ∧ c.toNat ≤ '9'.toNat then some (c.toNat - '0'.toNat) else none

/-- The value of a hexadecimal digit, either case. -/
def hexDigit (c : Char) : Option Nat :=
  if 'a'.toNat ≤ c.toNat ∧ c.toNat ≤ 'f'.toNat then some (c.toNat - 'a'.toNat + 10)
  else if 'A'.toNat ≤ c.toNat ∧ c.toNat ≤ 'F'.toNat then some (c.toNat - 'A'.toNat + 10)
  else decDigit c

/-- Digits in a base, continuing from `acc`; every character must be a digit. -/
def digitsFrom (digit : Char → Option Nat) (base : Nat) : Nat → List Char → Option Nat
  | acc, [] => some acc
  | acc, c :: cs =>
    match digit c with
    | some v => digitsFrom digit base (acc * base + v) cs
    | none => none

/-- One or more digits in a base. -/
def digits (digit : Char → Option Nat) (base : Nat) (cs : List Char) : Option Nat :=
  if cs.isEmpty then none else digitsFrom digit base 0 cs

/-- An integer literal (R73): decimal with optional `-`, or `0x` and hexadecimal digits. -/
def intLiteral : List Char → Option Int
  | '-' :: ds => (digits decDigit 10 ds).map fun n => -(n : Int)
  | '0' :: 'x' :: hs => (digits hexDigit 16 hs).map fun n => (n : Int)
  | ds => (digits decDigit 10 ds).map fun n => (n : Int)

/-- The pair (numerator, denominator) of `p / q / 2^u`. -/
def scaledQuotient (p q : Nat) (u : Int) : Nat × Nat :=
  if 0 ≤ u then (p, q * 2 ^ u.toNat) else (p * 2 ^ (-u).toNat, q)

/-- The bits, sign excluded, of the binary64 value nearest to `p / q`, ties to the even significand (R73). The unit
in the last place is `2^u`; with `m` units the bits are `(u + 1074) * 2^52 + m`, for subnormals and normals alike,
and a carry out of the significand falls into the exponent. -/
def nearestBits (p q : Nat) : Nat :=
  if p = 0 then 0
  else
    let u0 : Int := max ((p.log2 : Int) - q.log2 - 52) (-1074)
    let h := scaledQuotient p q u0
    let u : Int := if h.1 / h.2 < 2 ^ 52 then max (u0 - 1) (-1074) else u0
    let f := scaledQuotient p q u
    let m := f.1 / f.2
    let r := f.1 % f.2
    let up := f.2 < 2 * r || (2 * r == f.2 && m % 2 == 1)
    (u + 1074).toNat * 2 ^ 52 + (if up then m + 1 else m)

/-- The binary64 value nearest to `(-1)^neg * n * 10^e` (R73); none when it lies beyond the finite values (log 10). -/
def decimalBits (neg : Bool) (n : Nat) (e : Int) : Option Bits64 :=
  let bits := if 0 ≤ e then nearestBits (n * 10 ^ e.toNat) 1 else nearestBits n (10 ^ (-e).toNat)
  if bits < 2047 * 2 ^ 52 then some (BitVec.ofNat 64 ((if neg then 2 ^ 63 else 0) + bits)) else none

/-- An optional sign: whether it is `-`, and the characters after it. -/
def optionalSign : List Char → Bool × List Char
  | '-' :: cs => (true, cs)
  | '+' :: cs => (false, cs)
  | cs => (false, cs)

/-- The exponent part of a decimal floating-point literal: absent, or `e` or `E` and a signed integer. -/
def exponentPart : List Char → Option Int
  | [] => some 0
  | c :: cs =>
    if c = 'e' ∨ c = 'E' then
      let sg := optionalSign cs
      (digits decDigit 10 sg.2).map fun n => if sg.1 then -(n : Int) else (n : Int)
    else none

/-- A decimal floating-point literal: optional sign, digits, optional fraction, optional exponent (R73). -/
def decimalLiteral (cs : List Char) : Option Bits64 :=
  let sg := optionalSign cs
  let ip := sg.2.takeWhile Char.isDigit
  let afterInt := sg.2.dropWhile Char.isDigit
  let hasFraction := afterInt.head? == some '.'
  let fp := if hasFraction then (afterInt.drop 1).takeWhile Char.isDigit else []
  let tail := if hasFraction then (afterInt.drop 1).dropWhile Char.isDigit else afterInt
  if hasFraction && fp.isEmpty then none
  else if ip.isEmpty then none
  else
    match digits decDigit 10 (ip ++ fp), exponentPart tail with
    | some n, some e => decimalBits sg.1 n (e - fp.length)
    | _, _ => none

/-- A floating-point literal (R73): `f64:0x` and exactly 16 hexadecimal digits, or a decimal literal. -/
def floatLiteral : List Char → Option Bits64
  | 'f' :: '6' :: '4' :: ':' :: '0' :: 'x' :: hs =>
    if hs.length = 16 then (digits hexDigit 16 hs).map (BitVec.ofNat 64) else none
  | cs => decimalLiteral cs

/-! ### Lines (R72) -/

/-- A blank of a line. -/
def isBlank (c : Char) : Bool := c == ' ' || c == '\t' || c == '\r'

/-- A text without the blanks at its ends. -/
def trimBlanks (cs : List Char) : List Char := ((cs.dropWhile isBlank).reverse.dropWhile isBlank).reverse

/-- Split at a separator. -/
def splitAtSep (sep : Char) : List Char → List (List Char)
  | [] => [[]]
  | c :: cs =>
    if c = sep then [] :: splitAtSep sep cs
    else
      match splitAtSep sep cs with
      | [] => [[c]]
      | part :: parts => (c :: part) :: parts

/-- The nine operands of `BUILD` and `FRAME` (R72, R74), given to `k`. -/
def nineOperands (ops : List (List Char))
    (k : Int → Bits64 → Bits64 → Bits64 → Bits64 → Bits64 → Bits64 → Int → Int → List Instr) :
    Option (List Instr) :=
  match ops with
  | [cam, pitch, yaw, roll, x, y, z, zoom, focus] => do
    let c ← intLiteral cam
    let p ← floatLiteral pitch
    let w ← floatLiteral yaw
    let r ← floatLiteral roll
    let px ← floatLiteral x
    let py ← floatLiteral y
    let pz ← floatLiteral z
    let zm ← intLiteral zoom
    let fc ← intLiteral focus
    pure (k c p w r px py pz zm fc)
  | _ => none

/-- A mnemonic and its operands (R72, R74). -/
def assembleOp (mnemonic : List Char) (ops : List (List Char)) : Option (List Instr) :=
  if mnemonic = "START".toList then
    match ops with
    | [a] => (intLiteral a).map fun v => [asmStart v]
    | _ => none
  else if mnemonic = "ENCROT".toList then
    match ops with
    | [a] => (floatLiteral a).map fun d => [.encrot d]
    | _ => none
  else if mnemonic = "ENCPOS".toList then
    match ops with
    | [a] => (floatLiteral a).map fun d => [.encpos d]
    | _ => none
  else if mnemonic = "ENCINT".toList then
    match ops with
    | [a] => (intLiteral a).map fun v => [asmEncint v]
    | _ => none
  else if mnemonic = "RSVD".toList then
    if ops.isEmpty then some [.rsvd 0#64] else none
  else if mnemonic = "CSUM".toList then
    if ops.isEmpty then some [.csum 0#64] else none
  else if mnemonic = "CHK".toList then
    if ops.isEmpty then some [.chk 0#64] else none
  else if mnemonic = "BUILD".toList then
    nineOperands ops fun c p w r x y z zm fc => [asmBuild c p w r x y z zm fc]
  else if mnemonic = "FRAME".toList then nineOperands ops asmFrame
  else none

/-- One line (R72): `;` starts a comment, a line of blanks spells nothing, operands are separated by commas. -/
def assembleLine (line : List Char) : Option (List Instr) :=
  let text := trimBlanks (line.takeWhile (· != ';'))
  if text.isEmpty then some []
  else
    let operands := trimBlanks (text.dropWhile fun c => !isBlank c)
    assembleOp (text.takeWhile fun c => !isBlank c)
      (if operands.isEmpty then [] else (splitAtSep ',' operands).map trimBlanks)

/-- A source text, line by line (R72). -/
def assemble (source : List Char) : Option (List Instr) :=
  ((splitAtSep '\n' source).mapM assembleLine).map List.flatten

end Sys2Proof.Machine
end

