-- ==== Sys2Proof/Safety.lean ====
section
/-! DEFINITION. The terms claims use: the legality table, the invariants of R32, what a state keeps, clean runs. -/

namespace Sys2Proof.Machine

/-- The twelve values `WP` can take (R22, R32 item 1). -/
def wpValues : List Nat := [0, 2, 5, 8, 11, 14, 17, 20, 23, 26, 28, 29]

/-- The table of R151: at which values of `WP` a command is performed. -/
def performedAt (i : Instr) (wp : Nat) : Bool :=
  match i with
  | .start _ => true
  | .build _ _ _ _ _ _ _ _ _ => true
  | .encrot _ => [2, 5, 8, 11, 14, 17, 20, 23].contains wp
  | .encpos _ => [2, 5, 8, 11, 14, 17, 20, 23].contains wp
  | .encint _ => [2, 5, 8, 11, 14, 17, 20, 23].contains wp
  | .rsvd _ => wp == 26
  | .csum _ => wp == 28
  | .chk _ => wp == 29

/-- The bytes of `BUF` below an offset are all defined (R21). -/
def DefinedBelow (n : Nat) (s : State) : Prop := ∀ a, a < n → (s.buf.read a).isSome = true

/-- The invariants of R32, items 1 to 4. -/
structure Invariants (s : State) : Prop where
  /-- item 1 -/
  wpValue : s.wp.toNat ∈ wpValues
  /-- the defined bytes are exactly those below `WP` (R21) -/
  definedBytes : s.buf.map Prod.fst = List.range s.wp.toNat
  /-- item 2 -/
  markerByte : 2 ≤ s.wp.toNat → s.buf.read 0 = some 0xD1#8
  /-- item 3 -/
  reservedBytes : 28 ≤ s.wp.toNat → s.buf.read 26 = some 0x00#8 ∧ s.buf.read 27 = some 0x00#8
  /-- item 4, the checksum byte -/
  checksumByte : s.wp.toNat = 29 → ∃ bs, s.buf.readSeq 0 28 = some bs ∧ s.buf.read 28 = some (cksum bs)

/-- The five state elements of R20 are the same in both states. -/
def SameElements (s t : State) : Prop :=
  t.buf = s.buf ∧ t.wp = s.wp ∧ t.acc = s.acc ∧ t.seqErr = s.seqErr ∧ t.illCmd = s.illCmd

/-- The model's own fields for the host's stream are the same in both states. -/
def SameHost (s t : State) : Prop :=
  t.pending = s.pending ∧ t.returned = s.returned ∧ t.draws = s.draws

/-- Both sticky flags are the same in both states. -/
def SameFlags (s t : State) : Prop := t.seqErr = s.seqErr ∧ t.illCmd = s.illCmd

/-- Every byte of `BUF` outside the `n` offsets from `a` on reads the same in both states. -/
def SameBytesOutside (a n : Nat) (s t : State) : Prop :=
  ∀ b, b < a ∨ a + n ≤ b → t.buf.read b = s.buf.read b

/-- A sequence of bytes has been appended (R43): it stands at the old `WP`, every other byte reads as before, and
`WP` has moved past it. -/
def Appended (bs : List Byte) (s t : State) : Prop :=
  t.wp.toNat = s.wp.toNat + bs.length ∧
    (∀ i, i < bs.length → t.buf.read (s.wp.toNat + i) = bs[i]?) ∧
    SameBytesOutside s.wp.toNat bs.length s t

/-- A command has been dropped with `SeqErr` (R151): `SEQERR` is 1 and nothing else has changed. -/
def Dropped (s t : State) : Prop :=
  t.buf = s.buf ∧ t.wp = s.wp ∧ t.acc = s.acc ∧ t.seqErr = true ∧ t.illCmd = s.illCmd

/-- The three bytes `[f[23:16], f[15:8], f[7:0]]` of a field (R44, R60), by slices. -/
def fieldBytes (f : Bits24) : List Byte := [f.extractLsb' 16 8, f.extractLsb' 8 8, f.extractLsb' 0 8]

/-- A run from `s` to `t` has not gone wrong (R175): no flag is set at its end and it read no undefined byte. -/
def CleanRun (s t : State) : Prop := t.seqErr = false ∧ t.illCmd = false ∧ t.draws = s.draws

/-- `s` with a list of host events still to come. -/
def State.withEvents (s : State) (es : List HostEvent) : State := { s with pending := es }

/-- `s` with the words of a list of commands still to come. -/
def State.withProgram (s : State) (is : List Instr) : State :=
  s.withEvents (is.map fun i => .command (encode i))

end Sys2Proof.Machine
end

