-- ==== Sys2Proof/Certificates/Slice0/Obligations.lean ====
section
/-! DEFINITION. The statements for the provers. "Next state" is `.next`; the model's own fields `pending`,
`returned`, `draws` are those of logs 1 to 3 and only the statements that say so speak of them. -/

open Sys2Proof Sys2Proof.Machine

/-! ### Reset and the stream of events -/

/-- R31: the state after the reset event; nothing of `BUF` is defined, `STATUS` reads 0x00. -/
def Obligations.ResetEventGivesResetValues : Prop :=
  ∀ s, ∃ t, hostEvent .reset s = .next t ∧ t.wp = 0#5 ∧ t.acc = 0x40#8 ∧ t.seqErr = false ∧ t.illCmd = false ∧
    (∀ a, t.buf.read a = none) ∧ statusByte t = 0x00#8 ∧ t.valid = false ∧ SameElements t State.reset

/-- Logs 1 and 8 (the model's choice of how events arrive): a step takes the oldest pending event, and with none
pending nothing changes. -/
def Obligations.StepTakesOldestPendingEvent : Prop :=
  (∀ s e rest, s.pending = e :: rest → step s = hostEvent e (takeEvent rest s)) ∧
    ∀ s, s.pending = [] → step s = .next s

/-- A step runs the decoded command: when the next event is a word that decodes to `i`, the step is `exec i` on the
state from which that event has been taken (log 1). -/
def Obligations.StepRunsDecodedCommand : Prop :=
  ∀ s w rest i, s.pending = .command w :: rest → decode w = .ok i → i.wellFormed = true →
    step s = exec i (takeEvent rest s)

/-- The same through `withFetchWord`: the very next step runs the command whose word has been placed (logs 1, 14). -/
def Obligations.PlacedWordIsRunNext : Prop :=
  ∀ s nbits w i, decodeTableWord nbits w = some i → step (s.withFetchWord nbits w) = exec i s

/-- No command touches the host's stream, the bytes already returned or the draw counter (logs 1 to 3). -/
def Obligations.CommandsKeepHostFields : Prop :=
  ∀ i s t, exec i s = .next t → SameHost s t

/-! ### Encodings -/

/-- R64, R65: the fields of a word of each format, for every operand value. -/
def Obligations.FormatsPlaceOpcodeAndOperands : Prop :=
  (∀ opd, decode ⟨72, 0x01#8 ++ opd⟩ = .ok (.start opd)) ∧
  (∀ opd, decode ⟨72, 0x02#8 ++ opd⟩ = .ok (.encrot opd)) ∧
  (∀ opd, decode ⟨72, 0x03#8 ++ opd⟩ = .ok (.encpos opd)) ∧
  (∀ opd, decode ⟨72, 0x04#8 ++ opd⟩ = .ok (.encint opd)) ∧
  (∀ opd, decode ⟨72, 0x05#8 ++ opd⟩ = .ok (.rsvd opd)) ∧
  (∀ opd, decode ⟨72, 0x06#8 ++ opd⟩ = .ok (.csum opd)) ∧
  (∀ opd, decode ⟨72, 0x07#8 ++ opd⟩ = .ok (.chk opd)) ∧
  ∀ cam pitch yaw roll x y z zoom focus,
    decode ⟨488, 0x08#8 ++ cam ++ pitch ++ yaw ++ roll ++ x ++ y ++ z ++ zoom ++ focus⟩ =
      .ok (.build cam pitch yaw roll x y z zoom focus)

/-- Words of programs P1, P2 and P4 of 95_test_vectors.md decode to the commands they stand for. -/
def Obligations.SampleWordsDecode : Prop :=
  decodeTableWord 72 0x010000000000000007 = some (.start 7#64) ∧
  decodeTableWord 72 0x02C046C00000000000 = some (.encrot 0xC046C00000000000#64) ∧
  decodeTableWord 72 0x0340934A456D5CFAAD = some (.encpos 0x40934A456D5CFAAD#64) ∧
  decodeTableWord 72 0x04FFFFFFFFFFFFFFFF = some (.encint 0xFFFFFFFFFFFFFFFF#64) ∧
  decodeTableWord 72 0x070000000000000000 = some (.chk 0#64) ∧
  decodeTableWord 72 0x090000000000000000 = none ∧
  decodeTableWord 72 0x080000000000000000 = none

/-- Decode and encode agree on every command. -/
def Obligations.DecodeEncodeRoundTrip : Prop :=
  ∀ i, i.wellFormed = true → decode (encode i) = .ok i

/-- Encode and decode agree on every legal word: a word has one decoding and no bit of it is lost. -/
def Obligations.EncodeDecodeRoundTrip : Prop :=
  ∀ w i, decode w = .ok i → encode i = w

/-- A word spells a command exactly when it is legal by the numbers of R64 to R70. -/
def Obligations.DecodableWordsAreTheLegalWords : Prop :=
  ∀ w, (∃ i, decode w = .ok i) ↔ w.legal = true

/-- The operand bits that R67 marks as not read have no effect of any kind. -/
def Obligations.IgnoredOperandBitsHaveNoEffect : Prop :=
  (∀ a b s, a.extractLsb' 0 8 = b.extractLsb' 0 8 → exec (.start a) s = exec (.start b) s) ∧
  (∀ a b s, a.extractLsb' 0 24 = b.extractLsb' 0 24 → exec (.encint a) s = exec (.encint b) s) ∧
  (∀ a b s, exec (.rsvd a) s = exec (.rsvd b) s) ∧
  (∀ a b s, exec (.csum a) s = exec (.csum b) s) ∧
  (∀ a b s, exec (.chk a) s = exec (.chk b) s) ∧
  ∀ c c' p w r x y z zm zm' fc fc' s, c.extractLsb' 0 8 = c'.extractLsb' 0 8 →
    zm.extractLsb' 0 24 = zm'.extractLsb' 0 24 → fc.extractLsb' 0 24 = fc'.extractLsb' 0 24 →
    exec (.build c p w r x y z zm fc) s = exec (.build c' p w r x y z zm' fc') s

/-- What the assembler writes: the forms of R73 for integers, and never a set bit that the command ignores (log 9). -/
def Obligations.AssemblerWritesAssemblerForm : Prop :=
  (∀ v : Int, ∃ opd, asmEncint v = .encint opd ∧ opd.extractLsb' 0 32 = BitVec.ofInt 32 v ∧
    ∀ j, 32 ≤ j → j < 64 → opd.getLsbD j = opd.getLsbD 31) ∧
  ∀ line is, assembleLine line = some is → ∀ i ∈ is, i.assemblerForm = true

/-! ### Exceptions and flags -/

/-- R152, R155: a word that spells no command raises `IllCmd` and does nothing else; a legal word never does. -/
def Obligations.OnlyIllegalWordsRaiseIllCmd : Prop :=
  Exception.illCmd.causeCode = 2 ∧
  (∀ w s, w.legal = false → ∃ t, deliver w s = .next t ∧ t.illCmd = true ∧
    t.buf = s.buf ∧ t.wp = s.wp ∧ t.acc = s.acc ∧ t.seqErr = s.seqErr) ∧
  ∀ w s t, w.legal = true → deliver w s = .next t → t.illCmd = s.illCmd

/-- The legality table: a command is dropped with `SeqErr` exactly where the table of R151 does not have it
performed. At the twelve reachable values of `WP` this is R151; at the others (1, 3, 30, 31 and so on), which the
table does not list, it is log 7: DEDUCED from the `not in` and `/=` tests in the pseudocode of R98 to R100, R111,
R133 and R134. The premise on the defined bytes is R21 (log 6). -/
def Obligations.LegalityTableDecidesSeqErr : Prop :=
  Exception.seqErr.causeCode = 1 ∧
  (∀ i s, ¬ performedAt i s.wp.toNat → ∃ t, exec i s = .next t ∧ Dropped s t) ∧
  ∀ i s, performedAt i s.wp.toNat → DefinedBelow s.wp.toNat s → ∃ t, exec i s = .next t ∧ SameFlags s t

/-- R24: the flags are set by their exception, cleared by reset alone, and gate nothing: with the flags set, a
command does what it does with both 0, and they stay set. -/
def Obligations.StickyFlagsRecordAndNeverGate : Prop :=
  (∀ s, (raise .seqErr s).seqErr = true ∧ (raise .illCmd s).illCmd = true) ∧
  (∀ e s t, e ≠ .reset → hostEvent e s = .next t →
    (s.seqErr = true → t.seqErr = true) ∧ (s.illCmd = true → t.illCmd = true)) ∧
  (∀ s t, hostEvent .reset s = .next t → t.seqErr = false ∧ t.illCmd = false) ∧
  ∀ w s t a b, s.seqErr = false → s.illCmd = false → deliver w s = .next t →
    deliver w { s with seqErr := a, illCmd := b } =
      .next { t with seqErr := t.seqErr || a, illCmd := t.illCmd || b }

/-- R150: no operand value raises an exception, sets a flag or stops a command. -/
def Obligations.OperandValuesNeverRaise : Prop :=
  (∀ i s, DefinedBelow s.wp.toNat s → ∃ t, exec i s = .next t) ∧
  ∀ i j s t u, i.opcode = j.opcode → exec i s = .next t → exec j s = .next u → SameFlags t u

/-- R153 and the fields of R25: where each flag stands in `STATUS`, and the three registers. -/
def Obligations.StatusRegistersShowTheState : Prop :=
  (∀ e : Exception, e = .seqErr ∨ e = .illCmd) ∧
  Exception.seqErr.causeCode = 1 ∧ Exception.illCmd.causeCode = 2 ∧
  (∀ s, (statusByte s).getLsbD Exception.seqErr.causeCode = s.seqErr) ∧
  (∀ s, (statusByte s).getLsbD Exception.illCmd.causeCode = s.illCmd) ∧
  (∀ s, (statusByte s).getLsbD 0 = true ↔ s.wp.toNat = 29) ∧
  (∀ s, (statusByte s).extractLsb' 3 5 = 0#5) ∧
  (∀ s, (wprByte s).toNat = s.wp.toNat) ∧ (∀ s, accrByte s = s.acc) ∧
  statusByte State.reset = 0x00#8 ∧ wprByte State.reset = 0x00#8 ∧ accrByte State.reset = 0x40#8

/-! ### The field encoder -/

/-- R93: emission most significant byte first; the three bytes determine the field. -/
def Obligations.FieldsAreEmittedBigEndian : Prop :=
  ∀ f, be3 f = fieldBytes f ∧ f.extractLsb' 16 8 ++ f.extractLsb' 8 8 ++ f.extractLsb' 0 8 = f

/-- R98 with R90: `ENCROT` at a field offset appends the three bytes of `trunc(real(d) * 32768) mod 2^24`, big-endian
(`NONFINITE` where R90 does not apply); elsewhere it is dropped. -/
def Obligations.EncrotAppendsRotationField : Prop :=
  ∀ opd s, ∃ f t, exec (.encrot opd) s = .next t ∧
    (Covered .rot opd → f = to24 (trunc (real opd * 32768))) ∧
    (¬ Covered .rot opd → f = Config.nonfinite .rot opd) ∧
    (s.wp.toNat ∈ [2, 5, 8, 11, 14, 17, 20, 23] →
      Appended (fieldBytes f) s t ∧ t.acc = s.acc ∧ SameFlags s t) ∧
    (s.wp.toNat ∉ [2, 5, 8, 11, 14, 17, 20, 23] → Dropped s t)

/-- R99 with R91: `ENCPOS` likewise with scale 64. -/
def Obligations.EncposAppendsPositionField : Prop :=
  ∀ opd s, ∃ f t, exec (.encpos opd) s = .next t ∧
    (Covered .pos opd → f = to24 (trunc (real opd * 64))) ∧
    (¬ Covered .pos opd → f = Config.nonfinite .pos opd) ∧
    (s.wp.toNat ∈ [2, 5, 8, 11, 14, 17, 20, 23] →
      Appended (fieldBytes f) s t ∧ t.acc = s.acc ∧ SameFlags s t) ∧
    (s.wp.toNat ∉ [2, 5, 8, 11, 14, 17, 20, 23] → Dropped s t)

/-- R100 with R92: `ENCINT` appends the low 24 bits of its 32-bit signed integer. -/
def Obligations.EncintAppendsIntegerField : Prop :=
  ∀ opd s, ∃ f t, exec (.encint opd) s = .next t ∧
    f = opd.extractLsb' 0 24 ∧ f = to24 (opd.extractLsb' 0 32).toInt ∧
    (s.wp.toNat ∈ [2, 5, 8, 11, 14, 17, 20, 23] →
      Appended (fieldBytes f) s t ∧ t.acc = s.acc ∧ SameFlags s t) ∧
    (s.wp.toNat ∉ [2, 5, 8, 11, 14, 17, 20, 23] → Dropped s t)

/-- The integer procedure of R96 computes the exact-arithmetic field of R90 and R91 on every operand they cover. -/
def Obligations.FieldProcedureMatchesExactProduct : Prop :=
  ∀ kind d, Covered kind d → fpField kind d = to24 (scaledValue kind d)

/-- R101: which operands are non-finite for a scale, and that both commands complete on them with the open value. -/
def Obligations.NonfiniteOperandsComplete : Prop :=
  (∀ kind d, ¬ Covered kind d ↔ 2047 ≤ fpExp d + Config.scaleExp kind) ∧
  (∀ kind d, ¬ Covered kind d → fpField kind d = Config.nonfinite kind d) ∧
  (∀ d s, ¬ Covered .rot d → s.wp.toNat ∈ [2, 5, 8, 11, 14, 17, 20, 23] →
    ∃ t, exec (.encrot d) s = .next t ∧ Appended (fieldBytes (Config.nonfinite .rot d)) s t ∧ SameFlags s t) ∧
  ∀ d s, ¬ Covered .pos d → s.wp.toNat ∈ [2, 5, 8, 11, 14, 17, 20, 23] →
    ∃ t, exec (.encpos d) s = .next t ∧ Appended (fieldBytes (Config.nonfinite .pos d)) s t ∧ SameFlags s t

/-- R97: wrap, never clamp: the field is the scaled value modulo `2^24`; inside the exact signed range it reads back
as the scaled value, and `+8388608` reads back as `-8388608`. No flag is set. -/
def Obligations.OverflowWrapsAndNeverClamps : Prop :=
  (∀ kind d, Covered kind d →
    ((fpField kind d).toNat : Int) = scaledValue kind d % 2 ^ 24 ∧
    (-8388608 ≤ scaledValue kind d → scaledValue kind d ≤ 8388607 → (fpField kind d).toInt = scaledValue kind d) ∧
    (scaledValue kind d = 8388608 → fpField kind d = 0x800000#24 ∧ (fpField kind d).toInt = -8388608)) ∧
  ∀ d s, s.wp.toNat ∈ [2, 5, 8, 11, 14, 17, 20, 23] →
    (∃ t, exec (.encrot d) s = .next t ∧ SameFlags s t) ∧ ∃ t, exec (.encpos d) s = .next t ∧ SameFlags s t

/-- R102: the property over unbounded integers holds for every covered operand, and where the truncated product fits
64 bits it is the low 24 bits of that 64-bit integer. -/
def Obligations.ProductsBeyond64BitsFollowTheProperty : Prop :=
  ∀ kind d, Covered kind d → fpField kind d = to24 (scaledValue kind d) ∧
    (InRange64 kind d → ∃ v : BitVec 64, v.toInt = scaledValue kind d ∧ fpField kind d = v.extractLsb' 0 24)

/-- Truncation toward zero at its corners: below one unit on either side of zero, zeros and subnormals, one unit, and
one unit and a half. -/
def Obligations.TruncationIsTowardZero : Prop :=
  (∀ kind d, fpFinite d = true → |real d| * (Config.scale kind : ℚ) < 1 → fpField kind d = 0#24) ∧
  (∀ kind d, fpExp d = 0 → fpField kind d = 0#24) ∧
  (∀ kind d, fpFinite d = true → real d * (Config.scale kind : ℚ) = 1 → fpField kind d = 0x000001#24) ∧
  (∀ kind d, fpFinite d = true → real d * (Config.scale kind : ℚ) = -1 → fpField kind d = 0xFFFFFF#24) ∧
  ∀ kind d, fpFinite d = true → real d * (Config.scale kind : ℚ) = -3 / 2 → fpField kind d = 0xFFFFFF#24

/-- Truncation commutes with negation. -/
def Obligations.NegationNegatesTheField : Prop :=
  (∀ kind d, Covered kind d → fpField kind (fpNeg d) = -(fpField kind d)) ∧
  ∀ z : Int, intField (BitVec.ofInt 32 (-z)) = to24 (-z)

/-- Exact multiples of the unit are encoded without rounding, and one period of `2^24` units changes nothing. -/
def Obligations.ExactMultiplesAndPeriod : Prop :=
  (∀ kind d (n : Int), Covered kind d → real d * (Config.scale kind : ℚ) = n → fpField kind d = to24 n) ∧
  ∀ kind d d' (n : Int), Covered kind d → Covered kind d' → real d * (Config.scale kind : ℚ) = n →
    real d' = real d + 2 ^ 24 / (Config.scale kind : ℚ) → fpField kind d' = fpField kind d

/-- From `2^(76-k)` on, every field is zero. -/
def Obligations.LargeOperandsEncodeToZero : Prop :=
  ∀ kind d, Covered kind d → 2 ^ (76 - Config.scaleExp kind) ≤ |real d| → fpField kind d = 0#24

/-- Inside the signed range the field is a non-decreasing function of the operand. -/
def Obligations.FieldIsMonotonicInRange : Prop :=
  ∀ kind d d', Covered kind d → Covered kind d' →
    -8388608 ≤ scaledValue kind d → scaledValue kind d' ≤ 8388607 → real d ≤ real d' →
    (fpField kind d).toInt ≤ (fpField kind d').toInt

/-- Inside the signed range a field represents its operand to within one unit, never away from zero. -/
def Obligations.FieldRepresentsOperandWithinOneUnit : Prop :=
  ∀ kind d, Covered kind d → -8388608 ≤ scaledValue kind d → scaledValue kind d ≤ 8388607 →
    |fieldValue kind (fpField kind d) - real d| < 1 / (Config.scale kind : ℚ) ∧
      |fieldValue kind (fpField kind d)| ≤ |real d|

/-! ### The checksum engine -/

/-- The closed forms of the checksum function, signed and unsigned. -/
def Obligations.ChecksumClosedForm : Prop :=
  ∀ bs : List Byte, cksum bs = to8 (64 - (bs.map BitVec.toInt).sum) ∧
    cksum bs = to8 (64 - ((bs.map BitVec.toNat).sum : Nat))

/-- An 8-bit wrapping accumulator gives the same byte, the order of the bytes does not matter, and over 29 bytes the
mathematical accumulator stays inside 13 signed bits. -/
def Obligations.ChecksumAccumulatorsAgree : Prop :=
  (∀ bs, cksumWrapping bs = cksum bs) ∧
  (∀ bs cs : List Byte, bs.Perm cs → cksum bs = cksum cs) ∧
  ∀ bs, bs.length ≤ 29 → -3619 ≤ cksumAcc bs ∧ cksumAcc bs ≤ 3776

/-- Self-consistency, and its converse on 29 bytes. -/
def Obligations.ChecksumMakesFrameSelfChecking : Prop :=
  (∀ bs, cksum (bs ++ [cksum bs]) = 0x00#8) ∧
  ∀ g : List Byte, g.length = 29 → (cksum g = 0x00#8 ↔ g[28]? = some (cksum (g.take 28)))

/-- What the checksum detects: exactly the changes of the byte sum modulo 256, so every change of one byte. -/
def Obligations.ChecksumDetectsSumChanges : Prop :=
  (∀ g h : List Byte, g.length = 29 → h.length = 29 → cksum g = 0x00#8 →
    (cksum h = 0x00#8 ↔ (h.map BitVec.toNat).sum % 256 = (g.map BitVec.toNat).sum % 256)) ∧
  ∀ (g : List Byte) (i : Nat) (v : Byte), g.length = 29 → i < 29 → cksum g = 0x00#8 → g[i]? ≠ some v →
    cksum (g.set i v) ≠ 0x00#8

/-- R133: `CSUM`. -/
def Obligations.CsumAppendsTheChecksumByte : Prop :=
  ∀ opd s,
    (s.wp.toNat = 28 → DefinedBelow 28 s →
      ∃ bs t, exec (.csum opd) s = .next t ∧ bs.length = 28 ∧ (∀ i, i < 28 → s.buf.read i = bs[i]?) ∧
        Appended [cksum bs] s t ∧ t.acc = cksum bs ∧ SameFlags s t ∧ t.valid = true) ∧
    (s.wp.toNat ≠ 28 → ∃ t, exec (.csum opd) s = .next t ∧ Dropped s t)

/-- R134: `CHK`; in every state that satisfies the invariants of R32 the result is 0x00. -/
def Obligations.ChkEvaluatesTheWholeFrame : Prop :=
  ∀ opd s,
    (s.wp.toNat = 29 → DefinedBelow 29 s →
      ∃ bs t, exec (.chk opd) s = .next t ∧ bs.length = 29 ∧ (∀ i, i < 29 → s.buf.read i = bs[i]?) ∧
        t.acc = cksum bs ∧ t.buf = s.buf ∧ t.wp = s.wp ∧ SameFlags s t ∧ (Invariants s → t.acc = 0x00#8)) ∧
    (s.wp.toNat ≠ 29 → ∃ t, exec (.chk opd) s = .next t ∧ Dropped s t)

/-- The model's choice (log 6): the checksum engine stops at a byte that nothing has written. No state that satisfies
`Invariants` gets there. -/
def Obligations.ChecksumEngineStopsOnlyAtUndefinedBytes : Prop :=
  (∀ opd s, s.wp.toNat = 28 → ¬ DefinedBelow 28 s → exec (.csum opd) s = .fault .undefinedBufferByte) ∧
  (∀ opd s, s.wp.toNat = 29 → ¬ DefinedBelow 29 s → exec (.chk opd) s = .fault .undefinedBufferByte) ∧
  ∀ i s, Invariants s → exec i s ≠ .fault .undefinedBufferByte

/-! ### The frame assembler -/

/-- R110: `START`, in every state. -/
def Obligations.StartBeginsAFrame : Prop :=
  ∀ opd s, ∃ t, exec (.start opd) s = .next t ∧ t.wp = 2#5 ∧ t.buf.read 0 = some 0xD1#8 ∧
    t.buf.read 1 = some (opd.extractLsb' 0 8) ∧ (∀ a, 2 ≤ a → t.buf.read a = none) ∧ t.acc = s.acc ∧
    SameFlags s t ∧ t.valid = false

/-- R111: `RSVD`. -/
def Obligations.RsvdAppendsTwoZeroBytes : Prop :=
  ∀ opd s, ∃ t, exec (.rsvd opd) s = .next t ∧
    (s.wp.toNat = 26 → Appended [0x00#8, 0x00#8] s t ∧ t.buf.read 26 = some 0x00#8 ∧
      t.buf.read 27 = some 0x00#8 ∧ t.wp.toNat = 28 ∧ t.acc = s.acc ∧ SameFlags s t) ∧
    (s.wp.toNat ≠ 26 → Dropped s t)

/-- R112 with the layout of R62: `BUILD`, in every state, whatever its operands. -/
def Obligations.BuildWritesTheWholeFrame : Prop :=
  ∀ cam pitch yaw roll x y z zoom focus s, ∃ t,
    exec (.build cam pitch yaw roll x y z zoom focus) s = .next t ∧
    t.wp.toNat = 29 ∧ t.valid = true ∧ SameFlags s t ∧
    t.buf.read 0 = some 0xD1#8 ∧ t.buf.read 1 = some (cam.extractLsb' 0 8) ∧
    (∀ n f, [rotField pitch, rotField yaw, rotField roll, posField x, posField y, posField z,
        zoom.extractLsb' 0 24, focus.extractLsb' 0 24][n]? = some f →
      t.buf.read (2 + 3 * n) = some (f.extractLsb' 16 8) ∧
      t.buf.read (3 + 3 * n) = some (f.extractLsb' 8 8) ∧
      t.buf.read (4 + 3 * n) = some (f.extractLsb' 0 8)) ∧
    t.buf.read 26 = some 0x00#8 ∧ t.buf.read 27 = some 0x00#8 ∧
    (∃ bs, t.buf.readSeq 0 28 = some bs ∧ t.buf.read 28 = some (cksum bs) ∧ t.acc = cksum bs) ∧
    ∀ a, 29 ≤ a → t.buf.read a = none

/-- R116: the camera operand of either command is reduced modulo 256, whatever its width or sign. -/
def Obligations.CameraOperandWrapsModulo256 : Prop :=
  (∀ (w : Nat) (z : Int), 8 ≤ w → ((cameraByte (BitVec.ofInt w z)).toNat : Int) = z % 256) ∧
  (∀ (z : Int) s, ∃ t, exec (.start (BitVec.ofInt 64 z)) s = .next t ∧ t.buf.read 1 = some (to8 z) ∧
    SameFlags s t) ∧
  ∀ (z : Int) p w r px py pz zm fc s, ∃ t,
    exec (.build (BitVec.ofInt 32 z) p w r px py pz zm fc) s = .next t ∧ t.buf.read 1 = some (to8 z) ∧
    SameFlags s t

/-- `FRAME` and `BUILD` agree from any state: run through the whole command port, the eleven words of the expansion
raise nothing and leave `BUF`, `WP` and `ACC` as `BUILD` with the same operands does. That the words reach the machine
through `pending`, one a step, and that `pending` ends empty is the model's choice (log 1); so is the draw counter
that `CleanRun` compares (log 3). -/
def Obligations.FrameExpansionEqualsBuild : Prop :=
  ∀ (cam : Int) pitch yaw roll x y z (zoom focus : Int) s, ∃ t u,
    Sys2Proof.core.run 11 (s.withProgram (asmFrame cam pitch yaw roll x y z zoom focus)) = .next t ∧
    exec (asmBuild cam pitch yaw roll x y z zoom focus) s = .next u ∧
    t.buf = u.buf ∧ t.wp = u.wp ∧ t.acc = u.acc ∧ SameFlags s t ∧ SameFlags s u ∧ t.pending = [] ∧
    (s.seqErr = false → s.illCmd = false → CleanRun s t)

/-- What holds of every valid frame, as the host takes it. -/
def Obligations.ValidFramesAreWellFormed : Prop :=
  ∀ s, Invariants s → s.valid = true → ∃ bs, takeFrame s = some bs ∧ bs.length = 29 ∧
    (∀ i, i < 29 → s.buf.read i = bs[i]?) ∧ bs[0]? = some 0xD1#8 ∧ bs[26]? = some 0x00#8 ∧
    bs[27]? = some 0x00#8 ∧ bs[28]? = some (cksum (bs.take 28)) ∧ cksum bs = 0x00#8

/-- R115: a valid frame stays as it is until the next `START`, `BUILD` or reset. -/
def Obligations.ValidFrameStaysUntilNewFrame : Prop :=
  ∀ e s t, s.valid = true → hostEvent e s = .next t → e ≠ .reset →
    (∀ w i, e = .command w → decode w = .ok i → i.opcode ≠ .start ∧ i.opcode ≠ .build) →
    t.buf = s.buf ∧ t.wp = s.wp ∧ t.valid = true

/-! ### The buffer and the read port -/

/-- R43: `Append`, and that no command writes outside the 29 bytes or, but for `START` and `BUILD`, below `WP`. -/
def Obligations.AppendStaysInsideTheBuffer : Prop :=
  (∀ bs s, s.wp.toNat + bs.length ≤ 29 → Appended bs s (append bs s)) ∧
  (∀ e s t, s.buf.wf = true → hostEvent e s = .next t → t.buf.wf = true) ∧
  ∀ i s t, exec i s = .next t → i.opcode ≠ .start → i.opcode ≠ .build →
    ∀ a, a < s.wp.toNat → t.buf.read a = s.buf.read a

/-- R42: what a read returns, and that it changes none of the five state elements. `returned` is how the model shows
what the host received (log 2). -/
def Obligations.ReadReturnsOneByteAndChangesNothing : Prop :=
  ∀ addr s, ∃ b t, hostEvent (.read addr) s = .next t ∧ SameElements s t ∧ t.returned = s.returned ++ [b] ∧
    (∀ v, addr.toNat ≤ 28 → addr.toNat < s.wp.toNat → s.buf.read addr.toNat = some v → b = v) ∧
    (addr = 0x1D#5 →
      b = 0b00000#5 ++ BitVec.ofBool s.illCmd ++ BitVec.ofBool s.seqErr ++ BitVec.ofBool (decide (s.wp.toNat = 29))) ∧
    (addr = 0x1E#5 → b = 0b000#3 ++ s.wp) ∧
    (addr = 0x1F#5 → b = s.acc)

/-- The model's choice (log 3): a read at or above `WP` gives the host the free value and counts the draw, so that
each such read is a fresh one. -/
def Obligations.UndefinedReadDrawsAFreshByte : Prop :=
  ∀ addr s, addr.toNat ≤ 28 → s.wp.toNat ≤ addr.toNat →
    ∃ t, hostEvent (.read addr) s = .next t ∧ SameElements s t ∧
      t.returned = s.returned ++ [Config.unspecifiedByte s.draws] ∧ t.draws = s.draws + 1

/-- `START`, `BUILD` and `CHK` are idempotent. -/
def Obligations.StartBuildChkAreIdempotent : Prop :=
  ∀ i s t, i.opcode ∈ [Opcode.start, Opcode.build, Opcode.chk] → exec i s = .next t → exec i t = .next t

/-! ### The machine -/

/-- The reset state satisfies the invariants of R32. -/
def Obligations.ResetStateSatisfiesInvariants : Prop := Invariants State.reset

/-- Every step keeps the invariants of R32. A step is the oldest pending event, or none (logs 1 and 8). -/
def Obligations.EveryStepKeepsInvariants : Prop :=
  ∀ s t, Invariants s → step s = .next t → Invariants t

/-- R8: every word that the host delivers is performed or dropped with a flag; there is no stuck state. -/
def Obligations.EveryDeliveredWordCompletes : Prop :=
  ∀ w s, Invariants s → ∃ t, deliver w s = .next t ∧ (w.legal = false → t.illCmd = true) ∧
    ∀ i, decode w = .ok i → (performedAt i s.wp.toNat → SameFlags s t) ∧
      (¬ performedAt i s.wp.toNat → Dropped s t)

/-- How each command changes `WP`, and that `WP` takes only the twelve values. -/
def Obligations.WritePositionTakesOnlyLegalValues : Prop :=
  (∀ i s t, performedAt i s.wp.toNat → exec i s = .next t →
    match i with
    | .start _ => t.wp.toNat = 2
    | .encrot _ => t.wp.toNat = s.wp.toNat + 3
    | .encpos _ => t.wp.toNat = s.wp.toNat + 3
    | .encint _ => t.wp.toNat = s.wp.toNat + 3
    | .rsvd _ => t.wp.toNat = s.wp.toNat + 2
    | .csum _ => t.wp.toNat = s.wp.toNat + 1
    | .chk _ => t.wp = s.wp
    | .build _ _ _ _ _ _ _ _ _ => t.wp.toNat = 29) ∧
  (∀ i s t, ¬ performedAt i s.wp.toNat → exec i s = .next t → t.wp = s.wp) ∧
  ∀ e s t, s.wp.toNat ∈ wpValues → hostEvent e s = .next t → t.wp.toNat ∈ wpValues

/-- R23: what `ACC` holds. -/
def Obligations.AccHoldsLastChecksumResult : Prop :=
  (∀ i s t, performedAt i s.wp.toNat → exec i s = .next t → i.opcode ∈ [Opcode.csum, Opcode.build] →
    t.buf.read 28 = some t.acc) ∧
  (∀ i s t, performedAt i s.wp.toNat → exec i s = .next t → i.opcode = .chk →
    ∃ bs, s.buf.readSeq 0 29 = some bs ∧ t.acc = cksum bs ∧ (Invariants s → t.acc = 0x00#8)) ∧
  ∀ i s t, exec i s = .next t →
    i.opcode ∉ [Opcode.csum, Opcode.chk, Opcode.build] ∨ ¬ performedAt i s.wp.toNat → t.acc = s.acc

/-- R29: the result of a command depends on its operand, on `WP` and on the defined bytes of `BUF` alone; the bytes
written by a command other than `CSUM` depend on its operand and `WP` alone; `BUILD`'s result on its operands alone. -/
def Obligations.NoHiddenState : Prop :=
  (∀ i s s' t, s'.wp = s.wp → (∀ a, a < s.wp.toNat → s'.buf.read a = s.buf.read a) → exec i s = .next t →
    ∃ t' r, exec i s' = .next t' ∧ t'.wp = t.wp ∧ (∀ a, a < t.wp.toNat → t'.buf.read a = t.buf.read a) ∧
      t.seqErr = (s.seqErr || r) ∧ t'.seqErr = (s'.seqErr || r) ∧
      (t'.acc = t.acc ∨ (t.acc = s.acc ∧ t'.acc = s'.acc))) ∧
  (∀ i s s' t, s'.wp = s.wp → i.opcode ∉ [Opcode.csum, Opcode.chk] → exec i s = .next t →
    ∃ t', exec i s' = .next t' ∧ t'.wp = t.wp ∧
      ∀ a, (s.wp.toNat ≤ a ∨ i.opcode ∈ [Opcode.start, Opcode.build]) → a < t.wp.toNat →
        t'.buf.read a = t.buf.read a) ∧
  ∀ i s s' t t', i.opcode = .build → exec i s = .next t → exec i s' = .next t' →
    t'.buf = t.buf ∧ t'.wp = t.wp ∧ t'.acc = t.acc
end

