-- ==== Sys2Proof/Laws/Memory.lean ====
section
/-! SUPPORT. The laws of the buffer: read after write, the canonical form, reading and writing sequences. -/

namespace Sys2Proof.Machine

@[simp] theorem Memory.read_nil (a : Nat) : Memory.read [] a = none := rfl

theorem Memory.read_write (m : Memory) (a : Nat) (b : Byte) (c : Nat) :
    (m.write a b).read c = if c = a then some b else m.read c := by
  induction m with
  | nil => simp [Memory.write, Memory.read]
  | cons p rest ih =>
    obtain ⟨k, v⟩ := p
    simp only [Memory.write]
    split
    · simp [Memory.read]
    · split
      · next h => subst h; simp only [Memory.read]; split <;> simp_all
      · next h =>
        simp only [Memory.read, ih]
        split
        · next hc => rw [if_neg (by omega)]
        · rfl

/-- The sequence stands at its offsets and every other byte reads as before. -/
theorem Memory.read_writeSeq (m : Memory) (a : Nat) (bs : List Byte) (c : Nat) :
    (m.writeSeq a bs).read c = if a ≤ c ∧ c < a + bs.length then bs[c - a]? else m.read c := by
  induction bs generalizing m a with
  | nil => simp [Memory.writeSeq]
  | cons b rest ih =>
    simp only [Memory.writeSeq, ih, Memory.read_write, List.length_cons]
    by_cases h : c = a
    · subst h; simp
    · by_cases h2 : a + 1 ≤ c ∧ c < a + 1 + rest.length
      · have h3 : c - a = (c - (a + 1)) + 1 := by omega
        rw [if_pos h2, if_pos (by omega), h3, List.getElem?_cons_succ]
      · rw [if_neg h2, if_neg h, if_neg (by omega)]

theorem Memory.wf_cons_iff (c : Host.Cell) (m : Memory) :
    Memory.wf (c :: m) = true ↔
      c.1 < Config.frameLen ∧ Memory.wf m = true ∧ ∀ d, m.head? = some d → c.1 < d.1 := by
  induction m generalizing c with
  | nil => simp [Memory.wf]
  | cons d rest ih =>
    simp only [Memory.wf, Bool.and_eq_true, decide_eq_true_eq, List.head?_cons, Option.some.injEq, forall_eq']
    constructor
    · rintro ⟨h1, h2⟩; exact ⟨lt_trans h1 ((ih d).1 h2).1, h2, h1⟩
    · rintro ⟨_, h2, h1⟩; exact ⟨h1, h2⟩

/-- A write inside the buffer keeps the canonical form. -/
theorem Memory.wf_write (m : Memory) (a : Nat) (b : Byte) (hm : m.wf = true) (ha : a < Config.frameLen) :
    (m.write a b).wf = true := by
  induction m with
  | nil => simpa [Memory.write, Memory.wf] using ha
  | cons p rest ih =>
    obtain ⟨k, v⟩ := p
    have hp := (Memory.wf_cons_iff _ _).1 hm
    simp only [Memory.write]
    split
    · next h => exact (Memory.wf_cons_iff _ _).2 ⟨ha, hm, by simpa using h⟩
    · split
      · next h => subst h; exact (Memory.wf_cons_iff _ _).2 hp
      · next h1 h2 =>
        refine (Memory.wf_cons_iff _ _).2 ⟨hp.1, ih hp.2.1, ?_⟩
        intro d hd
        cases rest with
        | nil => simp [Memory.write] at hd; subst hd; show k < a; omega
        | cons q rest' =>
          obtain ⟨k', v'⟩ := q
          have hk : k < k' := hp.2.2 _ rfl
          simp only [Memory.write] at hd
          split at hd
          · simp at hd; subst hd; show k < a; omega
          · split at hd
            · simp at hd; subst hd; show k < a; omega
            · simp at hd; subst hd; exact hk

/-- Writing a sequence inside the buffer keeps the canonical form. -/
theorem Memory.wf_writeSeq (m : Memory) (a : Nat) (bs : List Byte) (hm : m.wf = true)
    (ha : a + bs.length ≤ Config.frameLen) : (m.writeSeq a bs).wf = true := by
  induction bs generalizing m a with
  | nil => exact hm
  | cons b rest ih =>
    simp only [List.length_cons] at ha
    exact ih _ _ (Memory.wf_write m a b hm (by omega)) (by omega)

/-- A write just above the highest offset adds a cell at the end. -/
theorem Memory.write_above (m : Memory) (a : Nat) (b : Byte) (h : ∀ c ∈ m, c.1 < a) :
    m.write a b = m ++ [(a, b)] := by
  induction m with
  | nil => rfl
  | cons p rest ih =>
    obtain ⟨k, v⟩ := p
    have hk : k < a := h (k, v) (by simp)
    simp only [Memory.write, if_neg (by omega : ¬ a < k), if_neg (by omega : ¬ a = k), List.cons_append]
    rw [ih fun c hc => h c (by simp [hc])]

/-- If the defined offsets are those below `n`, a sequence written at `n` makes them those below its end. -/
theorem Memory.keys_writeSeq (m : Memory) (n : Nat) (bs : List Byte) (h : m.map Prod.fst = List.range n) :
    (m.writeSeq n bs).map Prod.fst = List.range (n + bs.length) := by
  induction bs generalizing m n with
  | nil => simpa [Memory.writeSeq] using h
  | cons b rest ih =>
    have hb : ∀ c ∈ m, c.1 < n := fun c hc => by
      have : c.1 ∈ m.map Prod.fst := List.mem_map_of_mem hc
      rw [h] at this; exact List.mem_range.1 this
    simp only [Memory.writeSeq, List.length_cons]
    rw [ih (m.write n b) (n + 1) (by rw [Memory.write_above m n b hb, List.map_append, h, List.range_succ]; rfl)]
    congr 1; omega

/-- What a successful sequence read gives. -/
theorem Memory.readSeq_spec (m : Memory) (a n : Nat) (bs : List Byte) (h : m.readSeq a n = some bs) :
    bs.length = n ∧ ∀ i, i < n → m.read (a + i) = bs[i]? := by
  induction n generalizing a bs with
  | zero => simp [Memory.readSeq] at h; subst h; simp
  | succ n ih =>
    simp only [Memory.readSeq] at h
    split at h
    · next b rest hb hr =>
      simp only [Option.some.injEq] at h; subst h
      obtain ⟨h1, h2⟩ := ih _ _ hr
      refine ⟨by simp [h1], fun i hi => ?_⟩
      cases i with
      | zero => simpa using hb
      | succ j => have := h2 j (by omega); rw [show a + (j + 1) = a + 1 + j by omega, this]; simp
    · cases h

/-- A sequence read succeeds when every byte of it is defined. -/
theorem Memory.readSeq_isSome (m : Memory) (a n : Nat) (h : ∀ i, i < n → (m.read (a + i)).isSome = true) :
    ∃ bs, m.readSeq a n = some bs := by
  induction n generalizing a with
  | zero => exact ⟨[], rfl⟩
  | succ n ih =>
    obtain ⟨rest, hr⟩ := ih (a + 1) fun i hi => by
      have := h (i + 1) (by omega); rwa [show a + (i + 1) = a + 1 + i by omega] at this
    obtain ⟨b, hb⟩ := Option.isSome_iff_exists.1 (h 0 (by omega))
    exact ⟨b :: rest, by simp only [Memory.readSeq, hr]; rw [show a = a + 0 by omega, hb]⟩

end Sys2Proof.Machine
end

