-- ==== Sys2Proof/Laws/Operands.lean ====
section
/-! SUPPORT. The laws of the operand forms: the ranges of the binary64 parts and the cases of `fpField`. -/

namespace Sys2Proof.Machine

theorem fpExp_lt (d : Bits64) : fpExp d < 2048 := (d.extractLsb' 52 11).isLt

theorem fpFrac_lt (d : Bits64) : fpFrac d < 2 ^ 52 := (d.extractLsb' 0 52).isLt

theorem scale_eq (kind : FpKind) : Config.scale kind = 2 ^ Config.scaleExp kind := by cases kind <;> rfl

theorem mag24_lt (m : Nat) (sh : Int) : mag24 m sh < 2 ^ 24 := by
  unfold mag24
  split_ifs
  · decide
  · exact Nat.mod_lt _ (by decide)
  · exact Nat.mod_lt _ (by decide)
  · decide

/-- Where the biased exponent is too large for the scaled product, the field is the open value. -/
theorem fpField_of_overflow (kind : FpKind) (d : Bits64) (h : 2047 ≤ fpExp d + Config.scaleExp kind) :
    fpField kind d = Config.nonfinite kind d := by
  unfold fpField; split_ifs <;> rfl

/-- Zeros and subnormals. -/
theorem fpField_of_exp_zero (kind : FpKind) (d : Bits64) (h : fpExp d = 0) : fpField kind d = 0#24 := by
  have hk : ¬ 2047 ≤ Config.scaleExp kind := by cases kind <;> decide
  simp [fpField, h, hk]

/-- Normal operands with a finite product: the signed low 24 bits of the scaled magnitude. -/
theorem fpField_of_normal (kind : FpKind) (d : Bits64) (h0 : fpExp d ≠ 0)
    (h : fpExp d + Config.scaleExp kind < 2047) :
    fpField kind d =
      if fpSign d then
        BitVec.ofNat 24 (2 ^ 24 - mag24 (2 ^ 52 + fpFrac d) ((fpExp d : Int) - 1075 + Config.scaleExp kind))
      else BitVec.ofNat 24 (mag24 (2 ^ 52 + fpFrac d) ((fpExp d : Int) - 1075 + Config.scaleExp kind)) := by
  have h1 : ¬ fpExp d = 2047 := by omega
  have h2 : ¬ 2047 ≤ fpExp d + Config.scaleExp kind := by omega
  simp only [fpField, if_neg h1, if_neg h2, if_neg h0]

end Sys2Proof.Machine
end

