-- ==== Sys2Proof/Laws/State.lean ====
section
/-! SUPPORT. One lemma per field and update of the state, so that no proof unfolds a record update. -/

namespace Sys2Proof.Machine

@[simp] theorem append_buf (bs : List Byte) (s : State) : (append bs s).buf = s.buf.writeSeq s.wp.toNat bs := rfl
@[simp] theorem append_wp (bs : List Byte) (s : State) : (append bs s).wp = s.wp + BitVec.ofNat 5 bs.length := rfl
@[simp] theorem append_acc (bs : List Byte) (s : State) : (append bs s).acc = s.acc := rfl
@[simp] theorem append_seqErr (bs : List Byte) (s : State) : (append bs s).seqErr = s.seqErr := rfl
@[simp] theorem append_illCmd (bs : List Byte) (s : State) : (append bs s).illCmd = s.illCmd := rfl
@[simp] theorem append_pending (bs : List Byte) (s : State) : (append bs s).pending = s.pending := rfl
@[simp] theorem append_returned (bs : List Byte) (s : State) : (append bs s).returned = s.returned := rfl
@[simp] theorem append_draws (bs : List Byte) (s : State) : (append bs s).draws = s.draws := rfl

@[simp] theorem beginFrame_buf (s : State) : (beginFrame s).buf = [] := rfl
@[simp] theorem beginFrame_wp (s : State) : (beginFrame s).wp = 0#5 := rfl
@[simp] theorem beginFrame_acc (s : State) : (beginFrame s).acc = s.acc := rfl
@[simp] theorem beginFrame_seqErr (s : State) : (beginFrame s).seqErr = s.seqErr := rfl
@[simp] theorem beginFrame_illCmd (s : State) : (beginFrame s).illCmd = s.illCmd := rfl
@[simp] theorem beginFrame_pending (s : State) : (beginFrame s).pending = s.pending := rfl
@[simp] theorem beginFrame_returned (s : State) : (beginFrame s).returned = s.returned := rfl
@[simp] theorem beginFrame_draws (s : State) : (beginFrame s).draws = s.draws := rfl

@[simp] theorem setAcc_buf (v : Byte) (s : State) : (setAcc v s).buf = s.buf := rfl
@[simp] theorem setAcc_wp (v : Byte) (s : State) : (setAcc v s).wp = s.wp := rfl
@[simp] theorem setAcc_acc (v : Byte) (s : State) : (setAcc v s).acc = v := rfl
@[simp] theorem setAcc_seqErr (v : Byte) (s : State) : (setAcc v s).seqErr = s.seqErr := rfl
@[simp] theorem setAcc_illCmd (v : Byte) (s : State) : (setAcc v s).illCmd = s.illCmd := rfl
@[simp] theorem setAcc_pending (v : Byte) (s : State) : (setAcc v s).pending = s.pending := rfl
@[simp] theorem setAcc_returned (v : Byte) (s : State) : (setAcc v s).returned = s.returned := rfl
@[simp] theorem setAcc_draws (v : Byte) (s : State) : (setAcc v s).draws = s.draws := rfl

@[simp] theorem raise_buf (e : Exception) (s : State) : (raise e s).buf = s.buf := by cases e <;> rfl
@[simp] theorem raise_wp (e : Exception) (s : State) : (raise e s).wp = s.wp := by cases e <;> rfl
@[simp] theorem raise_acc (e : Exception) (s : State) : (raise e s).acc = s.acc := by cases e <;> rfl
@[simp] theorem raise_pending (e : Exception) (s : State) : (raise e s).pending = s.pending := by cases e <;> rfl
@[simp] theorem raise_returned (e : Exception) (s : State) : (raise e s).returned = s.returned := by cases e <;> rfl
@[simp] theorem raise_draws (e : Exception) (s : State) : (raise e s).draws = s.draws := by cases e <;> rfl
@[simp] theorem raise_seqErr_seqErr (s : State) : (raise .seqErr s).seqErr = true := rfl
@[simp] theorem raise_seqErr_illCmd (s : State) : (raise .seqErr s).illCmd = s.illCmd := rfl
@[simp] theorem raise_illCmd_seqErr (s : State) : (raise .illCmd s).seqErr = s.seqErr := rfl
@[simp] theorem raise_illCmd_illCmd (s : State) : (raise .illCmd s).illCmd = true := rfl

@[simp] theorem giveByte_buf (b : Byte) (s : State) : (giveByte b s).buf = s.buf := rfl
@[simp] theorem giveByte_wp (b : Byte) (s : State) : (giveByte b s).wp = s.wp := rfl
@[simp] theorem giveByte_acc (b : Byte) (s : State) : (giveByte b s).acc = s.acc := rfl
@[simp] theorem giveByte_seqErr (b : Byte) (s : State) : (giveByte b s).seqErr = s.seqErr := rfl
@[simp] theorem giveByte_illCmd (b : Byte) (s : State) : (giveByte b s).illCmd = s.illCmd := rfl
@[simp] theorem giveByte_pending (b : Byte) (s : State) : (giveByte b s).pending = s.pending := rfl
@[simp] theorem giveByte_returned (b : Byte) (s : State) : (giveByte b s).returned = s.returned ++ [b] := rfl
@[simp] theorem giveByte_draws (b : Byte) (s : State) : (giveByte b s).draws = s.draws := rfl

@[simp] theorem giveUnspecified_buf (s : State) : (giveUnspecified s).buf = s.buf := rfl
@[simp] theorem giveUnspecified_wp (s : State) : (giveUnspecified s).wp = s.wp := rfl
@[simp] theorem giveUnspecified_acc (s : State) : (giveUnspecified s).acc = s.acc := rfl
@[simp] theorem giveUnspecified_seqErr (s : State) : (giveUnspecified s).seqErr = s.seqErr := rfl
@[simp] theorem giveUnspecified_illCmd (s : State) : (giveUnspecified s).illCmd = s.illCmd := rfl
@[simp] theorem giveUnspecified_pending (s : State) : (giveUnspecified s).pending = s.pending := rfl
@[simp] theorem giveUnspecified_returned (s : State) :
    (giveUnspecified s).returned = s.returned ++ [Config.unspecifiedByte s.draws] := rfl
@[simp] theorem giveUnspecified_draws (s : State) : (giveUnspecified s).draws = s.draws + 1 := rfl

@[simp] theorem resetEvent_buf (s : State) : (resetEvent s).buf = [] := rfl
@[simp] theorem resetEvent_wp (s : State) : (resetEvent s).wp = 0#5 := rfl
@[simp] theorem resetEvent_acc (s : State) : (resetEvent s).acc = 0x40#8 := rfl
@[simp] theorem resetEvent_seqErr (s : State) : (resetEvent s).seqErr = false := rfl
@[simp] theorem resetEvent_illCmd (s : State) : (resetEvent s).illCmd = false := rfl
@[simp] theorem resetEvent_pending (s : State) : (resetEvent s).pending = s.pending := rfl
@[simp] theorem resetEvent_returned (s : State) : (resetEvent s).returned = s.returned := rfl
@[simp] theorem resetEvent_draws (s : State) : (resetEvent s).draws = s.draws := rfl

@[simp] theorem takeEvent_buf (es : List HostEvent) (s : State) : (takeEvent es s).buf = s.buf := rfl
@[simp] theorem takeEvent_wp (es : List HostEvent) (s : State) : (takeEvent es s).wp = s.wp := rfl
@[simp] theorem takeEvent_acc (es : List HostEvent) (s : State) : (takeEvent es s).acc = s.acc := rfl
@[simp] theorem takeEvent_seqErr (es : List HostEvent) (s : State) : (takeEvent es s).seqErr = s.seqErr := rfl
@[simp] theorem takeEvent_illCmd (es : List HostEvent) (s : State) : (takeEvent es s).illCmd = s.illCmd := rfl
@[simp] theorem takeEvent_pending (es : List HostEvent) (s : State) : (takeEvent es s).pending = es := rfl
@[simp] theorem takeEvent_returned (es : List HostEvent) (s : State) : (takeEvent es s).returned = s.returned := rfl
@[simp] theorem takeEvent_draws (es : List HostEvent) (s : State) : (takeEvent es s).draws = s.draws := rfl

end Sys2Proof.Machine
end

