-- ==== Sys2Proof/Laws/Ops.lean ====
section
/-! SUPPORT. For each shared operation, once, everything it can do. -/

namespace Sys2Proof.Machine

@[simp] theorem be3_length (f : Bits24) : (be3 f).length = 3 := rfl

@[simp] theorem body_length (cam : Bits32) (pitch yaw roll x y z : Bits64) (zoom focus : Bits32) :
    (body cam pitch yaw roll x y z zoom focus).length = 28 := rfl

@[simp] theorem frame_length (cam : Bits32) (pitch yaw roll x y z : Bits64) (zoom focus : Bits32) :
    (frame cam pitch yaw roll x y z zoom focus).length = 29 := rfl

/-- `append` inside the buffer moves `WP` past the sequence. -/
theorem append_wp_toNat (bs : List Byte) (s : State) (h : s.wp.toNat + bs.length ≤ 29) :
    (append bs s).wp.toNat = s.wp.toNat + bs.length := by
  simp only [append_wp, BitVec.toNat_add, BitVec.toNat_ofNat]; omega

/-- What every byte reads as after `append`. -/
theorem append_read (bs : List Byte) (s : State) (c : Nat) :
    (append bs s).buf.read c =
      if s.wp.toNat ≤ c ∧ c < s.wp.toNat + bs.length then bs[c - s.wp.toNat]? else s.buf.read c := by
  rw [append_buf, Memory.read_writeSeq]

/-- What every byte reads as after a new frame has been begun and a sequence appended. -/
theorem append_beginFrame_read (bs : List Byte) (s : State) (c : Nat) :
    (append bs (beginFrame s)).buf.read c = bs[c]? := by
  have h0 : (beginFrame s).wp.toNat = 0 := rfl
  rw [append_read, h0, beginFrame_buf, Memory.read_nil]
  by_cases h : 0 ≤ c ∧ c < 0 + bs.length
  · rw [if_pos h, Nat.sub_zero]
  · rw [if_neg h, List.getElem?_eq_none (by omega)]

/-- The reset state's buffer has the canonical form. -/
theorem reset_buf_wf : State.reset.buf.wf = true := rfl

/-- The legality test of the field commands leaves room for three bytes. -/
theorem atFieldOffset_iff (wp : BitVec 5) :
    atFieldOffset wp = true ↔ wp.toNat ∈ [2, 5, 8, 11, 14, 17, 20, 23] := by
  simp [atFieldOffset, Config.fieldOffsets]

/-- A field command appends its field or is dropped. -/
theorem appendField_cases (f : Bits24) (s : State) :
    (s.wp.toNat ∈ [2, 5, 8, 11, 14, 17, 20, 23] ∧ appendField f s = append (be3 f) s) ∨
      (s.wp.toNat ∉ [2, 5, 8, 11, 14, 17, 20, 23] ∧ appendField f s = raise .seqErr s) := by
  by_cases h : atFieldOffset s.wp = true
  · exact .inl ⟨(atFieldOffset_iff _).1 h, by simp [appendField, h]⟩
  · exact .inr ⟨fun hm => h ((atFieldOffset_iff _).2 hm), by simp [appendField, h]⟩

/-- The checksum engine's read goes on exactly when the bytes of the prefix are defined. -/
theorem withPrefix_next_iff (n : Nat) (s t : State) (k : List Byte → State) :
    withPrefix n s k = .next t ↔ ∃ bs, s.buf.readSeq 0 n = some bs ∧ t = k bs := by
  unfold withPrefix
  split
  · next bs h => simp [h, eq_comm]
  · next h => simp [h]

/-- With the prefix defined, the checksum engine reads it and goes on. -/
theorem withPrefix_defined (n : Nat) (s : State) (k : List Byte → State) (h : DefinedBelow n s) :
    ∃ bs, s.buf.readSeq 0 n = some bs ∧ withPrefix n s k = .next (k bs) := by
  obtain ⟨bs, hb⟩ := Memory.readSeq_isSome s.buf 0 n fun i hi => by simpa using h i hi
  exact ⟨bs, hb, (withPrefix_next_iff _ _ _ _).2 ⟨bs, hb, rfl⟩⟩

/-- A read gives the host one byte and keeps the five state elements. -/
theorem memRead_cases (addr : BitVec 5) (s : State) :
    (∃ b, portByte addr s = some b ∧ memRead addr s = giveByte b s) ∨
      (portByte addr s = none ∧ memRead addr s = giveUnspecified s) := by
  unfold memRead
  split
  · next b h => exact .inl ⟨b, h, rfl⟩
  · next h => exact .inr ⟨h, rfl⟩

/-- Everything a command can do when it goes on. -/
theorem exec_next_cases (i : Instr) (s t : State) (h : exec i s = .next t) :
    t = raise .seqErr s ∨
    (∃ f, s.wp.toNat ∈ [2, 5, 8, 11, 14, 17, 20, 23] ∧ t = append (be3 f) s) ∨
    (s.wp = 26#5 ∧ t = append [0x00#8, 0x00#8] s) ∨
    (s.wp = 28#5 ∧ ∃ bs, s.buf.readSeq 0 28 = some bs ∧ t = setAcc (cksum bs) (append [cksum bs] s)) ∨
    (s.wp = 29#5 ∧ ∃ bs, s.buf.readSeq 0 29 = some bs ∧ t = setAcc (cksum bs) s) ∨
    (∃ c, t = append [Config.marker, c] (beginFrame s)) ∨
    (∃ cam pitch yaw roll x y z zoom focus, t = setAcc (cksum (body cam pitch yaw roll x y z zoom focus))
      (append (frame cam pitch yaw roll x y z zoom focus) (beginFrame s))) := by
  have field : ∀ f, t = appendField f s → t = raise .seqErr s ∨
      ∃ f, s.wp.toNat ∈ [2, 5, 8, 11, 14, 17, 20, 23] ∧ t = append (be3 f) s := by
    rintro f rfl
    rcases appendField_cases f s with ⟨hw, he⟩ | ⟨_, he⟩
    · exact .inr ⟨f, hw, he⟩
    · exact .inl he
  cases i with
  | start opd => exact .inr (.inr (.inr (.inr (.inr (.inl ⟨_, (Host.Outcome.next.inj h).symm⟩)))))
  | encrot opd => exact (field _ (Host.Outcome.next.inj h).symm).imp_right .inl
  | encpos opd => exact (field _ (Host.Outcome.next.inj h).symm).imp_right .inl
  | encint opd => exact (field _ (Host.Outcome.next.inj h).symm).imp_right .inl
  | rsvd opd =>
    simp only [exec, execRsvd] at h
    split at h
    · next hw => exact .inr (.inr (.inl ⟨hw, (Host.Outcome.next.inj h).symm⟩))
    · exact .inl (Host.Outcome.next.inj h).symm
  | csum opd =>
    simp only [exec, execCsum] at h
    split at h
    · next hw => exact .inr (.inr (.inr (.inl ⟨hw, (withPrefix_next_iff _ _ _ _).1 h⟩)))
    · exact .inl (Host.Outcome.next.inj h).symm
  | chk opd =>
    simp only [exec, execChk] at h
    split at h
    · next hw => exact .inr (.inr (.inr (.inr (.inl ⟨hw, (withPrefix_next_iff _ _ _ _).1 h⟩))))
    · exact .inl (Host.Outcome.next.inj h).symm
  | build cam pitch yaw roll x y z zoom focus =>
    exact .inr (.inr (.inr (.inr (.inr (.inr
      ⟨cam, pitch, yaw, roll, x, y, z, zoom, focus, (Host.Outcome.next.inj h).symm⟩)))))

/-- Everything a host event can do when the machine goes on. -/
theorem hostEvent_next_cases (e : HostEvent) (s t : State) (h : hostEvent e s = .next t) :
    (∃ w i, e = .command w ∧ decode w = .ok i ∧ exec i s = .next t) ∨
      (∃ w err, e = .command w ∧ decode w = .error err ∧ t = raise .illCmd s) ∨
      (∃ addr, e = .read addr ∧ t = memRead addr s) ∨ (e = .reset ∧ t = resetEvent s) := by
  cases e with
  | command w =>
    simp only [hostEvent, deliver] at h
    split at h
    · next i hd => exact .inl ⟨w, i, rfl, hd, h⟩
    · next err hd => exact .inr (.inl ⟨w, err, rfl, hd, (Host.Outcome.next.inj h).symm⟩)
  | read addr => exact .inr (.inr (.inl ⟨addr, rfl, (Host.Outcome.next.inj h).symm⟩))
  | reset => exact .inr (.inr (.inr ⟨rfl, (Host.Outcome.next.inj h).symm⟩))

/-- Everything one step can do: nothing pending, or the oldest event. -/
theorem step_cases (s : State) :
    (s.pending = [] ∧ step s = .next s) ∨
      ∃ e rest, s.pending = e :: rest ∧ step s = hostEvent e (takeEvent rest s) := by
  unfold step nextEvent
  split
  · next h => exact .inl ⟨h, rfl⟩
  · next e rest h => exact .inr ⟨e, rest, h, rfl⟩

end Sys2Proof.Machine
end

