-- ==== Sys2Proof/Laws/PerInstr.lean ====
section
/-! SUPPORT. The per-instruction family EncodeLegal: the word the encoder writes for a command is a legal word. -/

namespace Sys2Proof.Laws

/-- The top byte of a format S word is its opcode. -/
theorem wordS_topByte (op : Opcode) (opd : Bits64) : (wordS op opd).topByte = op.code := by
  apply BitVec.eq_of_getLsbD_eq
  intro i hi
  simp only [CmdWord.topByte, wordS, BitVec.getLsbD_extractLsb', BitVec.getLsbD_append]
  rw [if_neg (by omega)]
  simp [hi]

/-- The word of a command is legal (R64 to R70). -/
def EncodeLegal.Statement (i : Instr) : Prop := (encode i).legal = true

theorem EncodeLegal.ofS (op : Opcode) (opd : Bits64) (h : 1 ≤ op.code.toNat ∧ op.code.toNat ≤ 7) :
    (wordS op opd).legal = true := by
  simp only [CmdWord.legal, wordS_topByte]
  simp [wordS, h.1, h.2]

theorem EncodeLegal.start (opd : Bits64) : EncodeLegal.Statement (.start opd) := EncodeLegal.ofS _ _ (by decide)
theorem EncodeLegal.encrot (opd : Bits64) : EncodeLegal.Statement (.encrot opd) := EncodeLegal.ofS _ _ (by decide)
theorem EncodeLegal.encpos (opd : Bits64) : EncodeLegal.Statement (.encpos opd) := EncodeLegal.ofS _ _ (by decide)
theorem EncodeLegal.encint (opd : Bits64) : EncodeLegal.Statement (.encint opd) := EncodeLegal.ofS _ _ (by decide)
theorem EncodeLegal.rsvd (opd : Bits64) : EncodeLegal.Statement (.rsvd opd) := EncodeLegal.ofS _ _ (by decide)
theorem EncodeLegal.csum (opd : Bits64) : EncodeLegal.Statement (.csum opd) := EncodeLegal.ofS _ _ (by decide)
theorem EncodeLegal.chk (opd : Bits64) : EncodeLegal.Statement (.chk opd) := EncodeLegal.ofS _ _ (by decide)
theorem EncodeLegal.build (cam : Bits32) (pitch yaw roll x y z : Bits64) (zoom focus : Bits32) :
    EncodeLegal.Statement (.build cam pitch yaw roll x y z zoom focus) := by
  have h : (encode (.build cam pitch yaw roll x y z zoom focus)).topByte = 0x08#8 := by
    apply BitVec.eq_of_getLsbD_eq
    intro i hi
    simp only [CmdWord.topByte, encode, BitVec.getLsbD_extractLsb', BitVec.getLsbD_append, hi, decide_true,
      Bool.true_and]
    repeat rw [if_neg (by omega)]
    rw [show 488 - 8 + i - 32 - 32 - 64 - 64 - 64 - 64 - 64 - 64 - 32 = i by omega]
    rfl
  simp only [EncodeLegal.Statement, CmdWord.legal, h]
  simp [encode]

end Sys2Proof.Laws
end

