-- ==== Sys2Proof/Tests/Slice0.lean ====
section
/-! SUPPORT. Tests. Expected values are those of spec/95_test_vectors.md (the vector's name stands at each test) or of
the rule named; the theorems that begin `witness_` give, for the obligation of that name, states and operands that
meet its hypotheses. -/

namespace Sys2Proof.Tests

open Sys2Proof.Machine

/-- The S1 frame of 95_test_vectors.md section 1. -/
def s1 : List Byte :=
  [0xD1, 0xFF, 0x2D, 0x00, 0x00, 0x00, 0x00, 0x00, 0x00, 0x00, 0x00, 0x00, 0x19, 0x00, 0x00,
   0x32, 0x00, 0x00, 0x4B, 0x00, 0x00, 0x00, 0x00, 0x00, 0x00, 0x00, 0x00, 0x00, 0xAD]

/-- The state whose defined bytes are the first `n` of S1, otherwise as after reset. -/
def s1At (n : Nat) : State := append (s1.take n) State.reset

/-- S1 complete, as after `CSUM`: `ACC = 0xAD`. -/
def s1Done : State := setAcc 0xAD#8 (s1At 29)

/-! ### The syntax layer -/

/-- WellFormed smoke: a reserved opcode, a wrong length for either format and a word without an opcode are refused. -/
theorem test_legal_refuses : (CmdWord.ofNat 72 0x000000000000000000).legal = false ∧
    (CmdWord.ofNat 72 0x090000000000000005).legal = false ∧ (CmdWord.ofNat 64 0x0200000000000000).legal = false ∧
    (CmdWord.ofNat 72 0x080000000000000000).legal = false ∧ (CmdWord.ofNat 7 0x01).legal = false ∧
    (CmdWord.ofNat 0 0).legal = false := by decide

/-- WellFormed smoke: set bits that the command ignores are not the assembler's form (R69, V-INT-16). -/
theorem test_assemblerForm_refuses : (Instr.encint 0xDEADBEEF00000001#64).assemblerForm = false ∧
    (Instr.rsvd 1#64).assemblerForm = false ∧ (Instr.csum 1#64).assemblerForm = false ∧
    (Instr.chk 1#64).assemblerForm = false := by decide

/-- V-CMD-19 to V-CMD-23 and a word of 7 bits: the decoder rejects by name. -/
theorem test_decode_rejects_by_name :
    decode (CmdWord.ofNat 72 0x000000000000000000) = .error (.reservedOpcode 0x00#8) ∧
    decode (CmdWord.ofNat 72 0xFF0000000000000000) = .error (.reservedOpcode 0xFF#8) ∧
    decode (CmdWord.ofNat 72 0x080000000000000000) = .error (.wrongLength .build 72) ∧
    decode (CmdWord.ofNat 64 0x0200000000000000) = .error (.wrongLength .encrot 64) ∧
    decode (CmdWord.ofNat 7 0x01) = .error (.tooShort 7) := by decide

/-- Words of programs P4, P2 and of V-CMD-02, written out in hexadecimal by R64: one for each format S command. -/
theorem test_decode_formatS :
    decode (CmdWord.ofNat 72 0x010000000000001234) = .ok (.start 0x1234#64) ∧
    decode (CmdWord.ofNat 72 0x024056800000000000) = .ok (.encrot 0x4056800000000000#64) ∧
    decode (CmdWord.ofNat 72 0x0340934A456D5CFAAD) = .ok (.encpos 0x40934A456D5CFAAD#64) ∧
    decode (CmdWord.ofNat 72 0x04FFFFFFFFFFFFFFFE) = .ok (.encint 0xFFFFFFFFFFFFFFFE#64) ∧
    decode (CmdWord.ofNat 72 0x050000000000000000) = .ok (.rsvd 0#64) ∧
    decode (CmdWord.ofNat 72 0x060000000000000000) = .ok (.csum 0#64) ∧
    decode (CmdWord.ofNat 72 0x070000000000000000) = .ok (.chk 0#64) := by decide

/-- The `BUILD` word of program P3. -/
def p3Build : Nat := 0x080000012C40700000000000004076800000000000C070000020000000410000000000000041100000000000004202A05F2000000001000005FF7FFFFF

/-- Program P3: the fields of its word, by R65. -/
theorem test_decode_formatB : decode (CmdWord.ofNat 488 p3Build) =
    .ok (.build 0x12C#32 0x4070000000000000#64 0x4076800000000000#64 0xC070000020000000#64 0x4100000000000000#64
      0x4110000000000000#64 0x4202A05F20000000#64 0x01000005#32 0xFF7FFFFF#32) := by decide +kernel

/-- P1's `BUILD` line encodes to the word the program gives. -/
theorem test_encode_build :
    encode (.build 0xFF#32 0x4056800000000000#64 0#64 0#64 0x4059000000000000#64 0x4069000000000000#64
      0x4072C00000000000#64 0#32 0#32) = CmdWord.ofNat 488
    0x08000000FF405680000000000000000000000000000000000000000000405900000000000040690000000000004072C000000000000000000000000000 := by
  decide +kernel

/-! ### The pure functions -/

/-- V-ROT-01 to V-ROT-36 where the field is not `NONFINITE`. -/
theorem test_rotField : ([(0x0000000000000000, 0x000000), (0x8000000000000000, 0x000000),
    (0x4056800000000000, 0x2D0000), (0xC056800000000000, 0xD30000), (0x4066800000000000, 0x5A0000),
    (0xC066800000000000, 0xA60000), (0x4076800000000000, 0xB40000), (0x3F00000000000000, 0x000001),
    (0xBF00000000000000, 0xFFFFFF), (0x3EF0000000000000, 0x000000), (0xBEF0000000000000, 0x000000),
    (0x3F08000000000000, 0x000001), (0xBF08000000000000, 0xFFFFFF), (0x3FB999999999999A, 0x000CCC),
    (0xBFB999999999999A, 0xFFF334), (0x406FFFFFC0000000, 0x7FFFFF), (0x4070000000000000, 0x800000),
    (0xC070000000000000, 0x800000), (0xC070000020000000, 0x7FFFFF), (0x4070000020000000, 0x800001),
    (0x4080000000000000, 0x000000), (0x405EDD2F1A9FBE77, 0x3DBA5E), (0xC05EDD2F1A9FBE77, 0xC245A2),
    (0x01A56E1FC2F8F359, 0x000000), (0x0000000000000001, 0x000000), (0x8000000000000001, 0x000000),
    (0x4270000000000001, 0x000008), (0x42F0000000000000, 0x000000), (0x42F0000000000001, 0x000800),
    (0xC2F0000000000001, 0xFFF800), (0x43C0000000000000, 0x000000), (0x7EF0000000000000, 0x000000)] :
    List (Nat × Nat)).all (fun v => rotField (BitVec.ofNat 64 v.1) == BitVec.ofNat 24 v.2) = true := by
  decide +kernel

/-- V-POS-02 to V-POS-24. -/
theorem test_posField : ([(0x4059000000000000, 0x001900), (0xC059000000000000, 0xFFE700),
    (0x3F90000000000000, 0x000001), (0xBF90000000000000, 0xFFFFFF), (0x3F847AE147AE147B, 0x000000),
    (0xBF847AE147AE147B, 0x000000), (0x3F80000000000000, 0x000000), (0x40FFFFFFC0000000, 0x7FFFFF),
    (0x4100000000000000, 0x800000), (0xC100000020000000, 0x7FFFFF), (0x4110000000000000, 0x000000),
    (0x40934A456D5CFAAD, 0x0134A4), (0xC0934A456D5CFAAD, 0xFECB5C), (0x3FEFF7CED916872B, 0x00003F),
    (0xBFEFF7CED916872B, 0xFFFFC1), (0x4202A05F20000000, 0xF90000), (0x4380000000000001, 0x000800),
    (0x7F00000000000000, 0x000000), (0x7F80000000000000, 0x000000)] :
    List (Nat × Nat)).all (fun v => posField (BitVec.ofNat 64 v.1) == BitVec.ofNat 24 v.2) = true := by
  decide +kernel

/-- V-INT-03 to V-INT-16. -/
theorem test_intField : ([(0xFFFFFFFF, 0xFFFFFF), (0x007FFFFF, 0x7FFFFF), (0x00800000, 0x800000),
    (0xFF800000, 0x800000), (0xFF7FFFFF, 0x7FFFFF), (0x01000000, 0x000000), (0x7FFFFFFF, 0xFFFFFF),
    (0x80000000, 0x000000), (0x12345678, 0x345678), (0xFFF0BDC0, 0xF0BDC0), (0xDEADBEEF00000001, 0x000001)] :
    List (Nat × Nat)).all (fun v => intField (intOperand (BitVec.ofNat 64 v.1)) == BitVec.ofNat 24 v.2) = true := by
  decide

/-- V-NF-01, V-NF-05, V-NF-06, V-NF-07, V-ROT-37 and V-POS-25: the open value, by kind and operand. -/
theorem test_nonfinite : rotField 0x7FF0000000000000#64 = Config.nonfinite .rot 0x7FF0000000000000#64 ∧
    posField 0xFFFFFFFFFFFFFFFF#64 = Config.nonfinite .pos 0xFFFFFFFFFFFFFFFF#64 ∧
    posField 0x7FEFFFFFFFFFFFFF#64 = Config.nonfinite .pos 0x7FEFFFFFFFFFFFFF#64 ∧
    rotField 0x7F00000000000000#64 = Config.nonfinite .rot 0x7F00000000000000#64 ∧
    posField 0x7F90000000000000#64 = Config.nonfinite .pos 0x7F90000000000000#64 := ⟨rfl, rfl, rfl, rfl, rfl⟩

/-- V-ROT-14 and V-ROT-13 by exact arithmetic: `real` and `trunc` of R90 and R95. -/
theorem test_scaledValue : real 0x4056800000000000#64 = 90 ∧ scaledValue .rot 0x3FB999999999999A#64 = 3276 ∧
    scaledValue .rot 0xBF08000000000000#64 = -1 ∧ scaledValue .rot 0x8000000000000001#64 = 0 := by
  decide +kernel

/-- V-CK-01 to V-CK-14. -/
theorem test_cksum : cksum [] = 0x40#8 ∧ cksum [0x40] = 0x00#8 ∧ cksum [0xD1] = 0x6F#8 ∧ cksum [0x80] = 0xC0#8 ∧
    cksum [0x7F] = 0xC1#8 ∧ cksum (List.replicate 28 0xFF) = 0x5C#8 ∧ cksum [0x80, 0x80] = 0x40#8 ∧
    cksum (s1.take 28) = 0xAD#8 ∧ cksum s1 = 0x00#8 ∧ cksum (List.replicate 28 0x7F) = 0x5C#8 ∧
    cksum (List.replicate 28 0x80) = 0x40#8 ∧ cksumWrapping (List.replicate 28 0x7F) = 0x5C#8 := by decide

/-! ### Single commands, state to state (section 4 of 95_test_vectors.md) -/

/-- V-CMD-03: camera -1 wraps. -/
theorem test_start : exec (.start 0xFFFFFFFFFFFFFFFF#64) State.reset = .next (s1At 2) := by rfl
/-- V-CMD-10: an old frame is discarded, `ACC` keeps 0xAD. -/
theorem test_start_discards : exec (.start 3#64) s1Done =
    .next { s1Done with buf := [(0, 0xD1#8), (1, 0x03#8)], wp := 2#5 } := by rfl
/-- V-CMD-04. -/
theorem test_encrot : exec (.encrot 0x4056800000000000#64) (s1At 2) = .next (s1At 5) := by rfl
/-- V-CMD-12: no frame begun. -/
theorem test_encrot_dropped : exec (.encrot 0x4056800000000000#64) State.reset =
    .next { State.reset with seqErr := true } := by rfl
/-- V-CMD-05. -/
theorem test_encpos : exec (.encpos 0x4059000000000000#64) (s1At 11) = .next (s1At 14) := by rfl
/-- P6 line 2: a position at a rotation offset is performed. -/
theorem test_encpos_kind_unchecked : exec (.encpos 0x4056800000000000#64) (s1At 2) =
    .next (append [0x00#8, 0x16#8, 0x80#8] (s1At 2)) := by rfl
/-- V-CMD-06. -/
theorem test_encint : exec (.encint 0xFFFFFFFFFFFFFFFE#64) (s1At 20) =
    .next (append [0xFF#8, 0xFF#8, 0xFE#8] (s1At 20)) := by rfl
/-- V-CMD-13: a ninth field. -/
theorem test_encint_dropped : exec (.encint 5#64) (s1At 26) = .next { s1At 26 with seqErr := true } := by rfl
/-- V-CMD-07. -/
theorem test_rsvd : exec (.rsvd 0#64) (s1At 26) = .next (s1At 28) := by rfl
/-- V-CMD-18. -/
theorem test_rsvd_dropped : exec (.rsvd 0#64) (s1At 8) = .next { s1At 8 with seqErr := true } := by rfl
/-- V-CMD-08. -/
theorem test_csum : exec (.csum 0#64) (s1At 28) = .next s1Done := by rfl
/-- V-CMD-16: the frame is already complete. -/
theorem test_csum_dropped : exec (.csum 0#64) s1Done = .next { s1Done with seqErr := true } := by rfl
/-- V-CMD-09. -/
theorem test_chk : exec (.chk 0#64) s1Done = .next { s1Done with acc := 0x00#8 } := by rfl
/-- V-CMD-15. -/
theorem test_chk_dropped : exec (.chk 0#64) (s1At 28) = .next { s1At 28 with seqErr := true } := by rfl
/-- V-CMD-11: `BUILD` from a half-built frame gives S1. -/
theorem test_build : exec (.build 0xFF#32 0x4056800000000000#64 0#64 0#64 0x4059000000000000#64
    0x4069000000000000#64 0x4072C00000000000#64 0#32 0#32) (s1At 14) = .next s1Done := by rfl
/-- Program P3: everything wraps; checked at camera, pitch, zoom, focus and checksum. -/
theorem test_build_wraps :
    (match step (State.reset.withFetchWord 488 p3Build) with
      | .next t => t.buf.read 1 == some 0x2C#8 && t.buf.read 2 == some 0x80#8 && t.buf.read 22 == some 0x05#8 &&
          t.buf.readSeq 23 3 == some [0x7F#8, 0xFF#8, 0xFF#8] && t.acc == 0x97#8 && statusByte t == 0x01#8
      | _ => false) = true := by decide +kernel

/-! ### Words, reads, reset -/

/-- V-CMD-24: an illegal word at `WP = 0` raises `IllCmd` only. -/
theorem test_illegal_word : step (State.reset.withFetchWord 72 0x090000000000000000) =
    .next { State.reset with illCmd := true } := by rfl
/-- V-CMD-22 by its `STATUS`: 0x04. -/
theorem test_illegal_status : ∃ t, step ((s1At 8).withFetchWord 72 0x080000000000000000) = .next t ∧
    statusByte t = 0x04#8 ∧ t.wp = 8#5 := ⟨_, rfl, by decide, by decide⟩
/-- V-RD-01 to V-RD-07. -/
theorem test_reads : portByte 0x00#5 s1Done = some 0xD1#8 ∧ portByte 0x02#5 s1Done = some 0x2D#8 ∧
    portByte 0x0C#5 s1Done = some 0x19#8 ∧ portByte 0x1C#5 s1Done = some 0xAD#8 ∧
    portByte 0x1D#5 s1Done = some 0x01#8 ∧ portByte 0x1E#5 s1Done = some 0x1D#8 ∧
    portByte 0x1F#5 s1Done = some 0xAD#8 := by decide
/-- V-RD-08 to V-RD-13: the byte at `WP` and above is unspecified. -/
theorem test_reads_undefined : portByte 0x04#5 (s1At 5) = some 0x00#8 ∧ portByte 0x05#5 (s1At 5) = none ∧
    portByte 0x1C#5 (s1At 5) = none ∧ portByte 0x1D#5 (s1At 5) = some 0x00#8 ∧
    portByte 0x1E#5 (s1At 5) = some 0x05#8 ∧ portByte 0x1F#5 (s1At 5) = some 0x40#8 := by decide
/-- P7 line 5: reset in the middle of a frame clears the sticky flag and the bytes. -/
theorem test_reset_event : hostEvent .reset { s1At 5 with acc := 0xAD#8, seqErr := true } = .next State.reset := by rfl
/-- S1 as the host takes it. -/
theorem test_takeFrame : takeFrame s1Done = some s1 ∧ takeFrame (s1At 28) = none := by decide

/-! ### The assembler (R72 to R74) -/

/-- The words of program P2, from its `FRAME` line. -/
theorem test_assemble_frame :
    (assembleLine "FRAME 1, -45.5, 123.456, -0.1, -100.0, 1234.5678, -0.999, 4096, -1 ; P2".toList).map
      (fun is => is.map fun i => (encode i).bits.toNat) =
    some [0x010000000000000001, 0x02C046C00000000000, 0x02405EDD2F1A9FBE77, 0x02BFB999999999999A,
      0x03C059000000000000, 0x0340934A456D5CFAAD, 0x03BFEFF7CED916872B, 0x040000000000001000,
      0x04FFFFFFFFFFFFFFFF, 0x050000000000000000, 0x060000000000000000] := by decide +kernel
/-- Literals of R73 and of V-ROT-27, V-POS-21; program P3's camera 300; errors. -/
theorem test_literals : floatLiteral "1e-300".toList = some 0x01A56E1FC2F8F359#64 ∧
    floatLiteral "1e10".toList = some 0x4202A05F20000000#64 ∧
    floatLiteral "f64:0xC070000020000000".toList = some 0xC070000020000000#64 ∧
    floatLiteral "f64:0x12".toList = none ∧ intLiteral "0xFFFFFFFF".toList = some 0xFFFFFFFF ∧
    assembleLine "ENCINT 0xFFFFFFFF".toList = assembleLine "ENCINT -1".toList ∧
    assembleLine "START 300".toList = some [.start 300#64] ∧ assembleLine "start 1".toList = none := by
  decide +kernel

/-! ### Witnesses: the hypotheses of the obligations can be met -/

/-- Every complete S1 prefix at a legal `WP` satisfies the invariants; here the one after reset, one in the middle,
and the complete frame. -/
theorem s1At8_invariants : Invariants (s1At 8) :=
  ⟨by decide, by decide, fun _ => by decide, fun h => absurd h (by decide), fun h => absurd h (by decide)⟩
theorem s1Done_invariants : Invariants s1Done :=
  ⟨by decide, by decide, fun _ => by decide, fun _ => by decide, fun _ => ⟨s1.take 28, by decide, by decide⟩⟩
theorem s1At28_defined : DefinedBelow 28 (s1At 28) := by
  intro a ha; revert a; decide
theorem s1Done_defined : DefinedBelow 29 s1Done := by
  intro a ha; revert a; decide

theorem witness_StepTakesOldestPendingEvent :
    (State.reset.withEvents [.reset]).pending = .reset :: [] ∧ State.reset.pending = [] := ⟨rfl, rfl⟩
theorem witness_StepRunsDecodedCommand :
    (State.reset.withEvents [.command (CmdWord.ofNat 72 0x010000000000000007)]).pending =
      .command (CmdWord.ofNat 72 0x010000000000000007) :: [] ∧
    decode (CmdWord.ofNat 72 0x010000000000000007) = .ok (.start 7#64) ∧ (Instr.start 7#64).wellFormed = true := by
  decide
theorem witness_PlacedWordIsRunNext : decodeTableWord 72 0x010000000000000007 = some (.start 7#64) := by decide
theorem witness_CommandsKeepHostFields : exec (.rsvd 0#64) (s1At 26) = .next (s1At 28) := by rfl
theorem witness_DecodeEncodeRoundTrip : (Instr.encrot 0xFFFFFFFFFFFFFFFF#64).wellFormed = true := rfl
theorem witness_EncodeDecodeRoundTrip :
    decode (CmdWord.ofNat 72 0x07FFFFFFFFFFFFFFFF) = .ok (.chk 0xFFFFFFFFFFFFFFFF#64) := by decide
theorem witness_IgnoredOperandBitsHaveNoEffect :
    (0x12FF#64).extractLsb' 0 8 = (0xFF#64).extractLsb' 0 8 ∧
    (0xDEADBEEF01000001#64).extractLsb' 0 24 = (1#64).extractLsb' 0 24 ∧
    (0x1FF#32).extractLsb' 0 8 = (0xFF#32).extractLsb' 0 8 ∧
    (0x01000005#32).extractLsb' 0 24 = (5#32).extractLsb' 0 24 := by decide
theorem witness_AssemblerWritesAssemblerForm : assembleLine "CSUM".toList = some [.csum 0#64] ∧
    (32 ≤ 63 ∧ 63 < 64) := by decide
theorem witness_OnlyIllegalWordsRaiseIllCmd : (CmdWord.ofNat 72 0x090000000000000000).legal = false ∧
    (CmdWord.ofNat 72 0x010000000000000007).legal = true ∧
    ∃ t, deliver (CmdWord.ofNat 72 0x010000000000000007) State.reset = .next t := ⟨by decide, by decide, _, rfl⟩
theorem witness_LegalityTableDecidesSeqErr : ¬ performedAt (.rsvd 0#64) State.reset.wp.toNat ∧
    ¬ performedAt (.encint 0#64) (s1At 26).wp.toNat ∧ performedAt (.encint 0#64) (s1At 23).wp.toNat ∧
    performedAt (.csum 0#64) (s1At 28).wp.toNat ∧ DefinedBelow (s1At 28).wp.toNat (s1At 28) :=
  ⟨by decide, by decide, by decide, by decide, s1At28_defined⟩
theorem witness_StickyFlagsRecordAndNeverGate :
    (∃ t, hostEvent (.read 0#5) { s1At 8 with seqErr := true, illCmd := true } = .next t) ∧
    (∃ t, hostEvent .reset (s1At 8) = .next t) ∧ (s1At 8).seqErr = false ∧ (s1At 8).illCmd = false ∧
    ∃ t, deliver (CmdWord.ofNat 72 0x050000000000000000) (s1At 8) = .next t :=
  ⟨⟨_, rfl⟩, ⟨_, rfl⟩, rfl, rfl, _, rfl⟩
theorem witness_OperandValuesNeverRaise : DefinedBelow s1Done.wp.toNat s1Done ∧
    (Instr.encrot 0#64).opcode = (Instr.encrot 0x7FF8000000000000#64).opcode ∧
    (∃ t, exec (.encrot 0#64) (s1At 8) = .next t) ∧ ∃ t, exec (.encrot 0x7FF8000000000000#64) (s1At 8) = .next t :=
  ⟨s1Done_defined, rfl, ⟨_, rfl⟩, _, rfl⟩

/-- 90.0 degrees and 100.0 units are covered, NaN and `2^1009` as a rotation are not; the largest covered power of
two for either kind (V-ROT-36, V-POS-24). -/
theorem witness_covered : Covered .rot 0x4056800000000000#64 ∧ Covered .pos 0x4059000000000000#64 ∧
    Covered .rot 0x7EF0000000000000#64 ∧ Covered .pos 0x7F80000000000000#64 ∧
    ¬ Covered .rot 0x7FF8000000000000#64 ∧ ¬ Covered .rot 0x7F00000000000000#64 ∧
    ¬ Covered .pos 0x7F90000000000000#64 := by decide +kernel
/-- Field offsets at both ends and the values of `WP` next to them: for the field commands' statements,
NonfiniteOperandsComplete and OverflowWrapsAndNeverClamps. -/
theorem witness_field_offsets : (s1At 2).wp.toNat ∈ [2, 5, 8, 11, 14, 17, 20, 23] ∧
    (s1At 23).wp.toNat ∈ [2, 5, 8, 11, 14, 17, 20, 23] ∧ State.reset.wp.toNat ∉ [2, 5, 8, 11, 14, 17, 20, 23] ∧
    (s1At 26).wp.toNat ∉ [2, 5, 8, 11, 14, 17, 20, 23] := by decide
theorem witness_EncrotAppendsRotationField : Covered .rot 0x4056800000000000#64 ∧
    ¬ Covered .rot 0x7FF8000000000000#64 ∧ (s1At 2).wp.toNat ∈ [2, 5, 8, 11, 14, 17, 20, 23] ∧
    (s1At 26).wp.toNat ∉ [2, 5, 8, 11, 14, 17, 20, 23] := by decide +kernel
theorem witness_EncposAppendsPositionField : Covered .pos 0x4059000000000000#64 ∧
    ¬ Covered .pos 0x7F90000000000000#64 ∧ (s1At 23).wp.toNat ∈ [2, 5, 8, 11, 14, 17, 20, 23] ∧
    (s1At 28).wp.toNat ∉ [2, 5, 8, 11, 14, 17, 20, 23] := by decide +kernel
theorem witness_EncintAppendsIntegerField : (s1At 20).wp.toNat ∈ [2, 5, 8, 11, 14, 17, 20, 23] ∧
    s1Done.wp.toNat ∉ [2, 5, 8, 11, 14, 17, 20, 23] := by decide
theorem witness_FieldProcedureMatchesExactProduct : Covered .pos 0x4380000000000001#64 := by decide +kernel
theorem witness_NonfiniteOperandsComplete : ¬ Covered .rot 0x7FF0000000000001#64 ∧
    ¬ Covered .pos 0x7FEFFFFFFFFFFFFF#64 ∧ (s1At 2).wp.toNat ∈ [2, 5, 8, 11, 14, 17, 20, 23] := by decide +kernel
theorem witness_OverflowWrapsAndNeverClamps : Covered .rot 0x4070000000000000#64 ∧
    scaledValue .rot 0x4070000000000000#64 = 8388608 ∧ Covered .rot 0x406FFFFFC0000000#64 ∧
    scaledValue .rot 0x406FFFFFC0000000#64 = 8388607 ∧ scaledValue .rot 0xC070000000000000#64 = -8388608 ∧
    (s1At 23).wp.toNat ∈ [2, 5, 8, 11, 14, 17, 20, 23] := by decide +kernel
theorem witness_ProductsBeyond64BitsFollowTheProperty : Covered .rot 0x42F0000000000001#64 ∧
    ¬ InRange64 .rot 0x42F0000000000001#64 ∧ Covered .rot 0x4270000000000001#64 ∧
    InRange64 .rot 0x4270000000000001#64 := by decide +kernel
theorem witness_TruncationIsTowardZero : fpFinite 0xBEF0000000000000#64 = true ∧
    |real 0xBEF0000000000000#64| * (Config.scale .rot : ℚ) < 1 ∧ fpExp 0x8000000000000001#64 = 0 ∧
    real 0x3F00000000000000#64 * (Config.scale .rot : ℚ) = 1 ∧
    real 0xBF90000000000000#64 * (Config.scale .pos : ℚ) = -1 ∧
    real 0xBF08000000000000#64 * (Config.scale .rot : ℚ) = -3 / 2 := by decide +kernel
theorem witness_NegationNegatesTheField : Covered .rot 0x3FB999999999999A#64 := by decide +kernel
theorem witness_ExactMultiplesAndPeriod : Covered .rot 0#64 ∧ Covered .rot 0x4080000000000000#64 ∧
    real 0#64 * (Config.scale .rot : ℚ) = ((0 : Int) : ℚ) ∧
    real 0x4080000000000000#64 = real 0#64 + 2 ^ 24 / (Config.scale .rot : ℚ) := by decide +kernel
theorem witness_LargeOperandsEncodeToZero : Covered .rot 0x43C0000000000000#64 ∧
    (2 : ℚ) ^ (76 - Config.scaleExp .rot) ≤ |real 0x43C0000000000000#64| := by decide +kernel
theorem witness_FieldIsMonotonicInRange : Covered .rot 0xC070000000000000#64 ∧ Covered .rot 0x406FFFFFC0000000#64 ∧
    -8388608 ≤ scaledValue .rot 0xC070000000000000#64 ∧ scaledValue .rot 0x406FFFFFC0000000#64 ≤ 8388607 ∧
    real 0xC070000000000000#64 ≤ real 0x406FFFFFC0000000#64 := by decide +kernel
theorem witness_FieldRepresentsOperandWithinOneUnit : Covered .rot 0xC05EDD2F1A9FBE77#64 ∧
    -8388608 ≤ scaledValue .rot 0xC05EDD2F1A9FBE77#64 ∧ scaledValue .rot 0xC05EDD2F1A9FBE77#64 ≤ 8388607 := by
  decide +kernel

theorem witness_ChecksumAccumulatorsAgree : [1#8, 2#8].Perm [2#8, 1#8] ∧ s1.length ≤ 29 := by decide
theorem witness_ChecksumMakesFrameSelfChecking : s1.length = 29 := by decide
theorem witness_ChecksumDetectsSumChanges : s1.length = 29 ∧ (s1.set 0 0xD2#8).length = 29 ∧ cksum s1 = 0x00#8 ∧
    s1[0]? ≠ some 0xD2#8 ∧ s1[28]? ≠ some 0x00#8 := by decide
theorem witness_CsumAppendsTheChecksumByte : (s1At 28).wp.toNat = 28 ∧ DefinedBelow 28 (s1At 28) ∧
    (s1At 26).wp.toNat ≠ 28 ∧ s1Done.wp.toNat ≠ 28 := ⟨by decide, s1At28_defined, by decide, by decide⟩
theorem witness_ChkEvaluatesTheWholeFrame : s1Done.wp.toNat = 29 ∧ DefinedBelow 29 s1Done ∧ Invariants s1Done ∧
    (s1At 28).wp.toNat ≠ 29 := ⟨by decide, s1Done_defined, s1Done_invariants, by decide⟩
theorem witness_ChecksumEngineStopsOnlyAtUndefinedBytes : ({ State.reset with wp := 28#5 } : State).wp.toNat = 28 ∧
    ¬ DefinedBelow 28 { State.reset with wp := 28#5 } ∧ ({ State.reset with wp := 29#5 } : State).wp.toNat = 29 ∧
    ¬ DefinedBelow 29 { State.reset with wp := 29#5 } ∧ Invariants s1Done :=
  ⟨by decide, fun h => absurd (h 0 (by decide)) (by decide), by decide,
    fun h => absurd (h 0 (by decide)) (by decide), s1Done_invariants⟩
theorem witness_RsvdAppendsTwoZeroBytes : (s1At 26).wp.toNat = 26 ∧ (s1At 23).wp.toNat ≠ 26 := by decide
theorem witness_BuildWritesTheWholeFrame :
    [rotField 0#64, rotField 0#64, rotField 0#64, posField 0#64, posField 0#64, posField 0#64,
      (7#32).extractLsb' 0 24, (9#32).extractLsb' 0 24][7]? = some 9#24 := by decide +kernel
theorem witness_CameraOperandWrapsModulo256 : (8 : Nat) ≤ 8 := by decide
theorem witness_FrameExpansionEqualsBuild : (s1At 8).seqErr = false ∧ (s1At 8).illCmd = false := ⟨rfl, rfl⟩
theorem witness_ValidFramesAreWellFormed : Invariants s1Done ∧ s1Done.valid = true := ⟨s1Done_invariants, by decide⟩
theorem witness_ValidFrameStaysUntilNewFrame : s1Done.valid = true ∧
    (∃ t, hostEvent (.command (CmdWord.ofNat 72 0x070000000000000000)) s1Done = .next t) ∧
    HostEvent.command (CmdWord.ofNat 72 0x070000000000000000) ≠ .reset ∧
    ∀ w i, HostEvent.command (CmdWord.ofNat 72 0x070000000000000000) = .command w → decode w = .ok i →
      i.opcode ≠ .start ∧ i.opcode ≠ .build := by
  refine ⟨by decide, ⟨_, rfl⟩, by decide, fun w i hw hd => ?_⟩
  cases hw
  rw [show decode (CmdWord.ofNat 72 0x070000000000000000) = .ok (.chk 0#64) by decide] at hd
  cases hd; decide
theorem witness_AppendStaysInsideTheBuffer : (s1At 28).wp.toNat + [0xAD#8].length ≤ 29 ∧
    (s1At 28).buf.wf = true ∧ (∃ t, hostEvent (.read 0#5) (s1At 28) = .next t) ∧
    (∃ t, exec (.csum 0#64) (s1At 28) = .next t) ∧ (Instr.csum 0#64).opcode ≠ .start ∧
    (Instr.csum 0#64).opcode ≠ .build ∧ 27 < (s1At 28).wp.toNat :=
  ⟨by decide, by decide, ⟨_, rfl⟩, ⟨_, rfl⟩, by decide, by decide, by decide⟩
theorem witness_ReadReturnsOneByteAndChangesNothing : (0x1C#5).toNat ≤ 28 ∧ (0x1C#5).toNat < s1Done.wp.toNat ∧
    s1Done.buf.read (0x1C#5).toNat = some 0xAD#8 := by decide
theorem witness_UndefinedReadDrawsAFreshByte : (0x05#5).toNat ≤ 28 ∧ (s1At 5).wp.toNat ≤ (0x05#5).toNat ∧
    (0x1C#5).toNat ≤ 28 ∧ (s1At 28).wp.toNat ≤ (0x1C#5).toNat := by decide
theorem witness_StartBuildChkAreIdempotent : (Instr.chk 0#64).opcode ∈ [Opcode.start, Opcode.build, Opcode.chk] ∧
    ∃ t, exec (.chk 0#64) s1Done = .next t := ⟨by decide, _, rfl⟩
theorem witness_EveryStepKeepsInvariants :
    Invariants ((s1At 8).withFetchWord 72 0x024056800000000000) ∧
    ∃ t, step ((s1At 8).withFetchWord 72 0x024056800000000000) = .next t :=
  ⟨⟨s1At8_invariants.1, s1At8_invariants.2, s1At8_invariants.3, s1At8_invariants.4, s1At8_invariants.5⟩, _, rfl⟩
theorem witness_EveryDeliveredWordCompletes : Invariants (s1At 8) ∧
    (CmdWord.ofNat 72 0xFF0000000000000000).legal = false ∧
    decode (CmdWord.ofNat 72 0x050000000000000000) = .ok (.rsvd 0#64) ∧ ¬ performedAt (.rsvd 0#64) (s1At 8).wp.toNat ∧
    decode (CmdWord.ofNat 72 0x040000000000000005) = .ok (.encint 5#64) ∧
    performedAt (.encint 5#64) (s1At 8).wp.toNat :=
  ⟨s1At8_invariants, by decide, by decide, by decide, by decide, by decide⟩
theorem witness_WritePositionTakesOnlyLegalValues : performedAt (.encint 5#64) (s1At 23).wp.toNat ∧
    (∃ t, exec (.encint 5#64) (s1At 23) = .next t) ∧ ¬ performedAt (.encint 5#64) (s1At 26).wp.toNat ∧
    (∃ t, exec (.encint 5#64) (s1At 26) = .next t) ∧ s1Done.wp.toNat ∈ wpValues ∧
    ∃ t, hostEvent .reset s1Done = .next t :=
  ⟨by decide, ⟨_, rfl⟩, by decide, ⟨_, rfl⟩, by decide, _, rfl⟩
theorem witness_AccHoldsLastChecksumResult : performedAt (.csum 0#64) (s1At 28).wp.toNat ∧
    (∃ t, exec (.csum 0#64) (s1At 28) = .next t) ∧ (Instr.csum 0#64).opcode ∈ [Opcode.csum, Opcode.build] ∧
    performedAt (.chk 0#64) s1Done.wp.toNat ∧ (∃ t, exec (.chk 0#64) s1Done = .next t) ∧ Invariants s1Done ∧
    (Instr.rsvd 0#64).opcode ∉ [Opcode.csum, Opcode.chk, Opcode.build] ∧
    (∃ t, exec (.rsvd 0#64) (s1At 26) = .next t) ∧ ¬ performedAt (.chk 0#64) (s1At 28).wp.toNat :=
  ⟨by decide, ⟨_, rfl⟩, by decide, by decide, ⟨_, rfl⟩, s1Done_invariants, by decide, ⟨_, rfl⟩, by decide⟩
theorem witness_NoHiddenState : (s1At 28).wp = ({ s1At 28 with acc := 0x12#8, illCmd := true } : State).wp ∧
    (∀ a, a < (s1At 28).wp.toNat →
      ({ s1At 28 with acc := 0x12#8, illCmd := true } : State).buf.read a = (s1At 28).buf.read a) ∧
    (∃ t, exec (.csum 0#64) (s1At 28) = .next t) ∧
    (s1At 8).wp = (append (List.replicate 8 0#8) State.reset).wp ∧
    (Instr.encint 5#64).opcode ∉ [Opcode.csum, Opcode.chk] ∧ (∃ t, exec (.encint 5#64) (s1At 8) = .next t) ∧
    (Instr.build 0#32 0#64 0#64 0#64 0#64 0#64 0#64 0#32 0#32).opcode = .build ∧
    (∃ t, exec (.build 0#32 0#64 0#64 0#64 0#64 0#64 0#64 0#32 0#32) (s1At 8) = .next t) ∧
    ∃ t, exec (.build 0#32 0#64 0#64 0#64 0#64 0#64 0#64 0#32 0#32) s1Done = .next t :=
  ⟨rfl, fun _ _ => rfl, ⟨_, rfl⟩, rfl, by decide, ⟨_, rfl⟩, rfl, ⟨_, rfl⟩, _, rfl⟩

end Sys2Proof.Tests
end

/-! # Proofs: which words decode (R66 to R71) -/

section

namespace Sys2Proof

/-- The opcode map and the opcode values are inverse to each other (R66). -/
theorem opcodeOf_eq_some_iff (c : Byte) (op : Opcode) : opcodeOf c = some op ↔ c = op.code := by
  constructor
  · intro h
    apply BitVec.eq_of_toNat_eq
    unfold opcodeOf at h
    split at h
    case h_9 => cases h
    all_goals cases h; assumption
  · rintro rfl
    cases op <;> rfl

/-- What a word that decodes looks like: its top byte is an opcode, its length is that of the opcode's format. -/
theorem decode_eq_ok_iff (w : CmdWord) (i : Instr) :
    decode w = .ok i ↔ ∃ op : Opcode, w.topByte = op.code ∧ w.width = op.format.length ∧ operandsOf op w = i := by
  have not_short : ∀ op : Opcode, w.width = op.format.length → ¬ w.width < 8 := by
    intro op hw
    rw [hw]
    cases op <;> decide
  constructor
  · intro h
    unfold decode at h
    split at h
    · cases h
    · split at h
      · cases h
      · next op hop =>
        split at h
        · next hlen => exact ⟨op, (opcodeOf_eq_some_iff _ op).1 hop, hlen, Except.ok.inj h⟩
        · cases h
  · rintro ⟨op, htop, hlen, rfl⟩
    have hop : opcodeOf (w.field (w.width - 8) 8) = some op := (opcodeOf_eq_some_iff _ op).2 htop
    simp only [decode, if_neg (not_short op hlen), hop, if_pos hlen]

/-- A word that decodes is legal (R68, R70). -/
theorem legal_of_decode_eq_ok {w : CmdWord} {i : Instr} (h : decode w = .ok i) : w.legal = true := by
  obtain ⟨op, htop, hlen, -⟩ := (decode_eq_ok_iff w i).1 h
  simp only [CmdWord.legal, htop, hlen]
  cases op <;> decide

end Sys2Proof

end

/-! # Proofs: what a performed and a dropped command answers (R8, R151) -/

section

namespace Sys2Proof.Machine

/-- A byte is defined exactly when its offset is listed. -/
theorem Memory.read_isSome_iff (m : Memory) (a : Nat) : (m.read a).isSome = true ↔ a ∈ m.map Prod.fst := by
  induction m with
  | nil => simp
  | cons c rest ih =>
    obtain ⟨k, v⟩ := c
    by_cases hk : a = k
    · simp [Memory.read, hk]
    · simp [Memory.read, hk, ih]

/-- Under the invariants the bytes below `WP` are defined, so that the checksum engine can read them. -/
theorem Invariants.definedBelow {s : State} (h : Invariants s) : DefinedBelow s.wp.toNat s := by
  intro a ha
  rw [Memory.read_isSome_iff, h.definedBytes]
  exact List.mem_range.2 ha

/-- From a state with the invariants every command answers a next state: the checksum engine, the only part that can
stop, reads below `WP`. -/
theorem Invariants.exec_completes {s : State} (h : Invariants s) (i : Instr) : ∃ t, exec i s = .next t := by
  have engine : ∀ n (k : List Byte → State), s.wp.toNat = n → ∃ t, withPrefix n s k = .next t := by
    rintro n k rfl
    obtain ⟨bs, -, hbs⟩ := withPrefix_defined _ s k h.definedBelow
    exact ⟨_, hbs⟩
  cases i with
  | csum opd =>
    by_cases hw : s.wp = 28#5
    · simpa only [exec, execCsum, if_pos hw] using engine Config.ckCover _ (by rw [hw]; rfl)
    · exact ⟨_, if_neg hw⟩
  | chk opd =>
    by_cases hw : s.wp = 29#5
    · simpa only [exec, execChk, if_pos hw] using engine Config.frameLen _ (by rw [hw]; rfl)
    · exact ⟨_, if_neg hw⟩
  | start | encrot | encpos | encint | rsvd | build => exact ⟨_, rfl⟩

/-- At a field offset a field command appends its field. -/
theorem appendField_of_mem {f : Bits24} {s : State} (h : s.wp.toNat ∈ [2, 5, 8, 11, 14, 17, 20, 23]) :
    appendField f s = append (be3 f) s := by
  rcases appendField_cases f s with ⟨-, he⟩ | ⟨hn, -⟩
  · exact he
  · exact absurd h hn

/-- Anywhere else a field command is dropped. -/
theorem appendField_of_not_mem {f : Bits24} {s : State} (h : s.wp.toNat ∉ [2, 5, 8, 11, 14, 17, 20, 23]) :
    appendField f s = raise .seqErr s := by
  rcases appendField_cases f s with ⟨hm, -⟩ | ⟨-, he⟩
  · exact absurd hm h
  · exact he

/-- Where the legality table does not list `WP`, a command answers the exception `SeqErr` (R151). -/
theorem exec_of_not_performedAt {i : Instr} {s : State} (h : ¬ performedAt i s.wp.toNat) :
    exec i s = .next (raise .seqErr s) := by
  cases i with
  | start | build => exact absurd rfl h
  | encrot | encpos | encint => exact congrArg _ (appendField_of_not_mem (by simpa [performedAt] using h))
  | rsvd opd =>
    have hw : s.wp ≠ 26#5 := fun hw => h (by rw [hw]; rfl)
    exact congrArg _ (if_neg hw)
  | csum opd =>
    have hw : s.wp ≠ 28#5 := fun hw => h (by rw [hw]; rfl)
    exact if_neg hw
  | chk opd =>
    have hw : s.wp ≠ 29#5 := fun hw => h (by rw [hw]; rfl)
    exact if_neg hw

/-- A command that is performed leaves both sticky flags as they are. -/
theorem sameFlags_of_performedAt {i : Instr} {s t : State} (h : performedAt i s.wp.toNat) (ht : exec i s = .next t) :
    SameFlags s t := by
  have field : ∀ f, s.wp.toNat ∈ [2, 5, 8, 11, 14, 17, 20, 23] → SameFlags s (appendField f s) := by
    intro f hm
    rw [appendField_of_mem hm]
    exact ⟨rfl, rfl⟩
  cases i with
  | start | build =>
    rw [← Host.Outcome.next.inj ht]
    simp [SameFlags]
  | encrot | encpos | encint =>
    rw [← Host.Outcome.next.inj ht]
    exact field _ (by simpa [performedAt] using h)
  | rsvd opd =>
    have hw : s.wp = BitVec.ofNat 5 Config.rsvOff :=
      BitVec.eq_of_toNat_eq (by simpa [performedAt, Config.rsvOff] using h)
    simp only [exec, execRsvd, if_pos hw] at ht
    rw [← Host.Outcome.next.inj ht]
    exact ⟨rfl, rfl⟩
  | csum opd =>
    have hw : s.wp = 28#5 := BitVec.eq_of_toNat_eq (by simpa [performedAt] using h)
    simp only [exec, execCsum, if_pos hw] at ht
    obtain ⟨bs, -, rfl⟩ := (withPrefix_next_iff _ _ _ _).1 ht
    exact ⟨rfl, rfl⟩
  | chk opd =>
    have hw : s.wp = 29#5 := BitVec.eq_of_toNat_eq (by simpa [performedAt] using h)
    simp only [exec, execChk, if_pos hw] at ht
    obtain ⟨bs, -, rfl⟩ := (withPrefix_next_iff _ _ _ _).1 ht
    exact ⟨rfl, rfl⟩

/-- Taking `SeqErr` drops the command. -/
theorem dropped_raise_seqErr (s : State) : Dropped s (raise .seqErr s) := ⟨rfl, rfl, rfl, rfl, rfl⟩

/-- A word that decodes is executed. -/
theorem deliver_of_decode_ok {w : CmdWord} {i : Instr} (h : decode w = .ok i) (s : State) :
    deliver w s = exec i s := by
  simp only [deliver, h]

/-- A word that spells no command raises `IllCmd` (R152). -/
theorem deliver_of_decode_error {w : CmdWord} {err : DecodeError} (h : decode w = .error err) (s : State) :
    deliver w s = .next (raise .illCmd s) := by
  simp only [deliver, h]

/-- Settles O52: a word that does not decode raises `IllCmd`; one that does is legal, and its command completes under
the invariants and goes by the legality table. -/
theorem everyDeliveredWordCompletes : Obligations.EveryDeliveredWordCompletes := by
  intro w s hinv
  cases hd : decode w with
  | error err => exact ⟨_, deliver_of_decode_error hd s, fun _ => rfl, fun i hi => nomatch hi⟩
  | ok i =>
    obtain ⟨t, ht⟩ := hinv.exec_completes i
    refine ⟨t, (deliver_of_decode_ok hd s).trans ht, fun hl => ?_, fun j hj => ?_⟩
    · exact absurd (legal_of_decode_eq_ok hd) (by simp [hl])
    · cases hj
      refine ⟨fun hp => sameFlags_of_performedAt hp ht, fun hn => ?_⟩
      obtain rfl : raise .seqErr s = t := Host.Outcome.next.inj ((exec_of_not_performedAt hn).symm.trans ht)
      exact dropped_raise_seqErr s

end Sys2Proof.Machine

end

/-! # Proofs: what one command does at one write position, and what its result depends on (R23, R24, R29, R31) -/

section

namespace Sys2Proof.Machine

/-! ### One action for each command and write position -/

/-- The action of a command at the write position `w`: one of six, the same in every state that has this position.
Which of them it is does not depend on `ACC`, the flags or `BUF`. -/
inductive ActionAt (i : Instr) (w : BitVec 5) : Prop where
  /-- `SeqErr` (R151) -/
  | drops (unlisted : ¬ performedAt i w.toNat)
      (run : ∀ s, s.wp = w → exec i s = .next (raise .seqErr s))
  /-- a field or the reserved bytes at `WP` (R98 to R100, R111) -/
  | appends (bs : List Byte) (kind : i.opcode ∉ [Opcode.start, Opcode.csum, Opcode.chk, Opcode.build])
      (room : w.toNat + bs.length ≤ 29) (run : ∀ s, s.wp = w → exec i s = .next (append bs s))
  /-- `START` (R110) -/
  | beginsFrame (camera : Byte) (kind : i.opcode = .start)
      (run : ∀ s, exec i s = .next (append [Config.marker, camera] (beginFrame s)))
  /-- `CSUM` (R133) -/
  | appendsChecksum (kind : i.opcode = .csum) (position : w = 28#5)
      (run : ∀ s, s.wp = w →
        exec i s = withPrefix 28 s fun bs => setAcc (cksum bs) (append [cksum bs] s))
  /-- `CHK` (R134) -/
  | checksFrame (kind : i.opcode = .chk) (position : w = 29#5)
      (run : ∀ s, s.wp = w → exec i s = withPrefix 29 s fun bs => setAcc (cksum bs) s)
  /-- `BUILD` (R112) -/
  | buildsFrame (bs : List Byte) (kind : i.opcode = .build) (full : bs.length = 28)
      (run : ∀ s, exec i s = .next (setAcc (cksum bs) (append (bs ++ [cksum bs]) (beginFrame s))))

/-- A field command at a field offset leaves room for its three bytes. -/
theorem fieldOffset_room {n : Nat} (h : n ∈ [2, 5, 8, 11, 14, 17, 20, 23]) : n + 3 ≤ 29 := by
  simp only [List.mem_cons, List.not_mem_nil, or_false] at h
  omega

/-- Every command has one of the six actions at every write position. -/
theorem actionAt (i : Instr) (w : BitVec 5) : ActionAt i w := by
  by_cases hp : performedAt i w.toNat
  case neg => exact .drops hp (by rintro s rfl; exact exec_of_not_performedAt hp)
  have field : ∀ f, i.opcode ∉ [Opcode.start, Opcode.csum, Opcode.chk, Opcode.build] →
      w.toNat ∈ [2, 5, 8, 11, 14, 17, 20, 23] → (∀ s, exec i s = .next (appendField f s)) → ActionAt i w := by
    intro f hkind hmem hrun
    refine .appends (be3 f) hkind (fieldOffset_room hmem) ?_
    rintro s rfl
    rw [hrun s, appendField_of_mem hmem]
  cases i with
  | start opd => exact .beginsFrame (cameraByte opd) rfl fun _ => rfl
  | encrot opd => exact field (rotField opd) (by simp [Instr.opcode]) (by simpa [performedAt] using hp) fun _ => rfl
  | encpos opd => exact field (posField opd) (by simp [Instr.opcode]) (by simpa [performedAt] using hp) fun _ => rfl
  | encint opd =>
    exact field (intField (intOperand opd)) (by simp [Instr.opcode]) (by simpa [performedAt] using hp) fun _ => rfl
  | rsvd opd =>
    obtain rfl : w = 26#5 := BitVec.eq_of_toNat_eq (by simpa [performedAt] using hp)
    exact .appends [0x00#8, 0x00#8] (by simp [Instr.opcode]) (by decide) fun s hs => congrArg _ (if_pos hs)
  | csum opd =>
    obtain rfl : w = 28#5 := BitVec.eq_of_toNat_eq (by simpa [performedAt] using hp)
    exact .appendsChecksum rfl rfl fun s hs => if_pos hs
  | chk opd =>
    obtain rfl : w = 29#5 := BitVec.eq_of_toNat_eq (by simpa [performedAt] using hp)
    exact .checksFrame rfl rfl fun s hs => if_pos hs
  | build cam pitch yaw roll x y z zoom focus =>
    exact .buildsFrame (body cam pitch yaw roll x y z zoom focus) rfl rfl fun _ => rfl

/-- `START` and `BUILD` are performed at every write position (R151). -/
theorem performedAt_of_opcode {i : Instr} {w : Nat} (h : i.opcode = .start ∨ i.opcode = .build) :
    performedAt i w := by
  cases i with
  | start | build => rfl
  | encrot | encpos | encint | rsvd | csum | chk => simp [Instr.opcode] at h

/-! ### The reset event (R31) -/

/-- `STATUS` reads 0x00 after the reset event. -/
theorem statusByte_resetEvent (s : State) : statusByte (resetEvent s) = 0x00#8 := by
  simp [statusByte, State.valid]

/-- Settles O1: the fields of the reset event's state, each by its law. -/
theorem resetEventGivesResetValues : Obligations.ResetEventGivesResetValues := by
  intro s
  exact ⟨resetEvent s, rfl, resetEvent_wp s, resetEvent_acc s, resetEvent_seqErr s, resetEvent_illCmd s,
    fun a => by rw [resetEvent_buf, Memory.read_nil], statusByte_resetEvent s, rfl, rfl, rfl, rfl, rfl, rfl⟩

/-! ### The flags record and do not gate (R24) -/

/-- `s` with the flags or-ed with `a` and `b`. -/
def orFlags (a b : Bool) (s : State) : State := { s with seqErr := s.seqErr || a, illCmd := s.illCmd || b }

@[simp] theorem orFlags_buf (a b : Bool) (s : State) : (orFlags a b s).buf = s.buf := rfl
@[simp] theorem orFlags_wp (a b : Bool) (s : State) : (orFlags a b s).wp = s.wp := rfl

theorem raise_orFlags (e : Exception) (a b : Bool) (s : State) :
    raise e (orFlags a b s) = orFlags a b (raise e s) := by cases e <;> rfl
theorem append_orFlags (bs : List Byte) (a b : Bool) (s : State) :
    append bs (orFlags a b s) = orFlags a b (append bs s) := rfl
theorem beginFrame_orFlags (a b : Bool) (s : State) : beginFrame (orFlags a b s) = orFlags a b (beginFrame s) := rfl
theorem setAcc_orFlags (v : Byte) (a b : Bool) (s : State) :
    setAcc v (orFlags a b s) = orFlags a b (setAcc v s) := rfl

/-- Where both flags are 0, or-ing sets them. -/
theorem orFlags_of_clear {s : State} (hseq : s.seqErr = false) (hill : s.illCmd = false) (a b : Bool) :
    orFlags a b s = { s with seqErr := a, illCmd := b } := by
  simp [orFlags, hseq, hill]

/-- The flags gate no command: its action commutes with or-ing flags in. -/
theorem exec_orFlags {i : Instr} {s t : State} (a b : Bool) (h : exec i s = .next t) :
    exec i (orFlags a b s) = .next (orFlags a b t) := by
  cases actionAt i s.wp with
  | drops _ run =>
    rw [run s rfl] at h
    cases h
    rw [run _ (orFlags_wp a b s), raise_orFlags]
  | appends bs _ _ run =>
    rw [run s rfl] at h
    cases h
    rw [run _ (orFlags_wp a b s), append_orFlags]
  | beginsFrame c _ run =>
    rw [run s] at h
    cases h
    rw [run, beginFrame_orFlags, append_orFlags]
  | appendsChecksum _ _ run =>
    rw [run s rfl] at h
    obtain ⟨bs, hbs, rfl⟩ := (withPrefix_next_iff _ _ _ _).1 h
    rw [run _ (orFlags_wp a b s)]
    exact (withPrefix_next_iff _ _ _ _).2 ⟨bs, hbs, by rw [append_orFlags, setAcc_orFlags]⟩
  | checksFrame _ _ run =>
    rw [run s rfl] at h
    obtain ⟨bs, hbs, rfl⟩ := (withPrefix_next_iff _ _ _ _).1 h
    rw [run _ (orFlags_wp a b s)]
    exact (withPrefix_next_iff _ _ _ _).2 ⟨bs, hbs, by rw [setAcc_orFlags]⟩
  | buildsFrame bs _ _ run =>
    rw [run s] at h
    cases h
    rw [run, beginFrame_orFlags, append_orFlags, setAcc_orFlags]

/-- The flags gate no delivered word, legal or not. -/
theorem deliver_orFlags {w : CmdWord} {s t : State} (a b : Bool) (h : deliver w s = .next t) :
    deliver w (orFlags a b s) = .next (orFlags a b t) := by
  cases hd : decode w with
  | ok i =>
    rw [deliver_of_decode_ok hd] at h ⊢
    exact exec_orFlags a b h
  | error err =>
    rw [deliver_of_decode_error hd] at h ⊢
    cases h
    rw [raise_orFlags]

/-- Taking an exception clears no flag. -/
theorem raise_keeps_flags (e : Exception) (s : State) :
    (s.seqErr = true → (raise e s).seqErr = true) ∧ (s.illCmd = true → (raise e s).illCmd = true) := by
  cases e with
  | seqErr => exact ⟨fun _ => rfl, id⟩
  | illCmd => exact ⟨id, fun _ => rfl⟩

/-- No command clears a flag. -/
theorem exec_keeps_flags {i : Instr} {s t : State} (h : exec i s = .next t) :
    (s.seqErr = true → t.seqErr = true) ∧ (s.illCmd = true → t.illCmd = true) := by
  by_cases hp : performedAt i s.wp.toNat
  · obtain ⟨hseq, hill⟩ := sameFlags_of_performedAt hp h
    exact ⟨hseq.trans, hill.trans⟩
  · rw [exec_of_not_performedAt hp] at h
    cases h
    exact raise_keeps_flags .seqErr s

/-- No event but reset clears a flag. -/
theorem hostEvent_keeps_flags {e : HostEvent} {s t : State} (he : e ≠ .reset) (h : hostEvent e s = .next t) :
    (s.seqErr = true → t.seqErr = true) ∧ (s.illCmd = true → t.illCmd = true) := by
  rcases hostEvent_next_cases e s t h with
    ⟨_, _, _, _, hexec⟩ | ⟨_, _, _, _, rfl⟩ | ⟨addr, _, rfl⟩ | ⟨hreset, _⟩
  · exact exec_keeps_flags hexec
  · exact raise_keeps_flags .illCmd s
  · rcases memRead_cases addr s with ⟨_, _, hread⟩ | ⟨_, hread⟩ <;> rw [hread] <;> exact ⟨id, id⟩
  · exact absurd hreset he

/-- Settles O15: raising sets, no event but reset clears, and delivery commutes with or-ing flags in. -/
theorem stickyFlagsRecordAndNeverGate : Obligations.StickyFlagsRecordAndNeverGate := by
  refine ⟨fun s => ⟨rfl, rfl⟩, fun e s t => hostEvent_keeps_flags, fun s t h => ?_, fun w s t a b hseq hill h => ?_⟩
  · cases h
    exact ⟨resetEvent_seqErr s, resetEvent_illCmd s⟩
  · rw [← orFlags_of_clear hseq hill]
    exact deliver_orFlags a b h

/-! ### `ACC` holds the last checksum result (R23) -/

/-- `to8` depends on the residue modulo 256 alone. -/
theorem to8_congr {x y : Int} (h : x % 256 = y % 256) : to8 x = to8 y :=
  BitVec.eq_of_toNat_eq (by simp [h])

/-- The corrected remainder of R130 is the accumulator modulo 256. -/
theorem cksum_eq_to8 (bs : List Byte) : cksum bs = to8 (cksumAcc bs) := by
  have hdiv := Int.tmod_add_mul_tdiv (cksumAcc bs) 256
  apply to8_congr
  split <;> omega

/-- One more byte is one more subtraction. -/
theorem cksumAcc_concat (bs : List Byte) (b : Byte) : cksumAcc (bs ++ [b]) = cksumAcc bs - b.toInt := by
  simp [cksumAcc]

/-- A sequence followed by its checksum has checksum 0 (R135). -/
theorem cksum_concat_cksum (bs : List Byte) : cksum (bs ++ [cksum bs]) = 0x00#8 := by
  calc cksum (bs ++ [cksum bs])
      = to8 (cksumAcc bs + -(cksum bs).toInt) := by rw [cksum_eq_to8, cksumAcc_concat, Int.sub_eq_add_neg]
    _ = to8 (cksumAcc bs) - cksum bs := by
        rw [to8, BitVec.ofInt_add, BitVec.ofInt_neg, BitVec.ofInt_toInt, ← BitVec.sub_eq_add_neg]
    _ = 0x00#8 := by rw [← cksum_eq_to8, BitVec.sub_self]

/-- A sequence read extended by the byte after it. -/
theorem Memory.readSeq_concat {m : Memory} {a n : Nat} {bs : List Byte} {b : Byte} (h : m.readSeq a n = some bs)
    (hb : m.read (a + n) = some b) : m.readSeq a (n + 1) = some (bs ++ [b]) := by
  induction n generalizing a bs with
  | zero =>
    cases h
    simp only [Nat.add_zero] at hb
    simp [Memory.readSeq, hb]
  | succ n ih =>
    simp only [Memory.readSeq] at h
    split at h
    · next c rest hc hrest =>
      cases h
      have tail := ih hrest (by rwa [Nat.add_right_comm, Nat.add_assoc])
      rw [Memory.readSeq, hc, tail]
      rfl
    · cases h

/-- Under the invariants a complete frame has checksum 0 (R32 item 4). -/
theorem Invariants.cksum_frame {s : State} (hinv : Invariants s) (hwp : s.wp.toNat = 29) {bs : List Byte}
    (h : s.buf.readSeq 0 29 = some bs) : cksum bs = 0x00#8 := by
  obtain ⟨pre, hpre, hlast⟩ := hinv.checksumByte hwp
  obtain rfl : pre ++ [cksum pre] = bs :=
    Option.some.inj ((Memory.readSeq_concat hpre (by simpa using hlast)).symm.trans h)
  exact cksum_concat_cksum pre

/-- After a performed `CSUM` or `BUILD`, `ACC` is the byte at 28. -/
theorem read_checksum_byte_eq_acc {i : Instr} {s t : State} (hp : performedAt i s.wp.toNat) (h : exec i s = .next t)
    (hop : i.opcode ∈ [Opcode.csum, Opcode.build]) : t.buf.read 28 = some t.acc := by
  cases actionAt i s.wp with
  | drops unlisted _ => exact absurd hp unlisted
  | appends _ kind _ _ => exact absurd ((by decide : [Opcode.csum, Opcode.build] ⊆ _) hop) kind
  | beginsFrame _ kind _ | checksFrame kind _ _ => simp [kind] at hop
  | appendsChecksum _ position run =>
    rw [run s rfl] at h
    obtain ⟨bs, -, rfl⟩ := (withPrefix_next_iff _ _ _ _).1 h
    rw [setAcc_buf, append_read, position]
    rfl
  | buildsFrame bs _ full run =>
    rw [run s] at h
    cases h
    rw [setAcc_buf, append_beginFrame_read, ← full, List.getElem?_concat_length]
    rfl

/-- A performed `CHK` puts the checksum of all 29 bytes into `ACC`. -/
theorem acc_of_chk {i : Instr} {s t : State} (hp : performedAt i s.wp.toNat) (h : exec i s = .next t)
    (hop : i.opcode = .chk) : s.wp.toNat = 29 ∧ ∃ bs, s.buf.readSeq 0 29 = some bs ∧ t.acc = cksum bs := by
  cases actionAt i s.wp with
  | drops unlisted _ => exact absurd hp unlisted
  | appends _ kind _ _ => exact absurd (by simp [hop]) kind
  | beginsFrame _ kind _ | appendsChecksum kind _ _ | buildsFrame _ kind _ _ => cases hop.symm.trans kind
  | checksFrame _ position run =>
    rw [run s rfl] at h
    obtain ⟨bs, hbs, rfl⟩ := (withPrefix_next_iff _ _ _ _).1 h
    exact ⟨congrArg BitVec.toNat position, bs, hbs, rfl⟩

/-- Only a performed `CSUM`, `CHK` or `BUILD` writes `ACC`. -/
theorem exec_keeps_acc {i : Instr} {s t : State} (h : exec i s = .next t)
    (hn : i.opcode ∉ [Opcode.csum, Opcode.chk, Opcode.build] ∨ ¬ performedAt i s.wp.toNat) : t.acc = s.acc := by
  by_cases hp : performedAt i s.wp.toNat
  case neg =>
    rw [exec_of_not_performedAt hp] at h
    cases h
    rfl
  have hop := hn.resolve_right (not_not_intro hp)
  cases actionAt i s.wp with
  | drops unlisted _ => exact absurd hp unlisted
  | appends _ _ _ run =>
    rw [run s rfl] at h
    cases h
    rfl
  | beginsFrame _ _ run =>
    rw [run s] at h
    cases h
    rfl
  | appendsChecksum kind _ _ | checksFrame kind _ _ | buildsFrame _ kind _ _ => simp [kind] at hop

/-- Settles O54: the three clauses of R23, the zero of `CHK` by the self-checking frame. -/
theorem accHoldsLastChecksumResult : Obligations.AccHoldsLastChecksumResult := by
  refine ⟨fun i s t => read_checksum_byte_eq_acc, fun i s t hp h hop => ?_, fun i s t => exec_keeps_acc⟩
  obtain ⟨hwp, bs, hbs, hacc⟩ := acc_of_chk hp h hop
  exact ⟨bs, hbs, hacc, fun hinv => hacc.trans (hinv.cksum_frame hwp hbs)⟩

/-! ### No hidden state (R29) -/

/-- A sequence read depends on the bytes it reads alone. -/
theorem Memory.readSeq_congr {m m' : Memory} {a n : Nat} (h : ∀ c, a ≤ c → c < a + n → m'.read c = m.read c) :
    m'.readSeq a n = m.readSeq a n := by
  induction n generalizing a with
  | zero => rfl
  | succ n ih =>
    have hhead : m'.read a = m.read a := h a le_rfl (by omega)
    have htail : m'.readSeq (a + 1) n = m.readSeq (a + 1) n := ih fun c h1 h2 => h c (by omega) (by omega)
    rw [Memory.readSeq, Memory.readSeq, hhead, htail]

/-- From the same write position, `append` writes the same bytes. -/
theorem append_read_congr_of_le {s s' : State} (hwp : s'.wp = s.wp) {bs : List Byte} {c : Nat}
    (hlo : s.wp.toNat ≤ c) (hhi : c < s.wp.toNat + bs.length) :
    (append bs s').buf.read c = (append bs s).buf.read c := by
  rw [append_read, append_read, hwp, if_pos ⟨hlo, hhi⟩, if_pos ⟨hlo, hhi⟩]

/-- `append` takes states that agree below `WP` to states that agree below the new `WP`. -/
theorem append_read_congr {s s' : State} (hwp : s'.wp = s.wp)
    (hbuf : ∀ a, a < s.wp.toNat → s'.buf.read a = s.buf.read a) {bs : List Byte}
    (room : s.wp.toNat + bs.length ≤ 29) {c : Nat} (hc : c < (append bs s).wp.toNat) :
    (append bs s').buf.read c = (append bs s).buf.read c := by
  rw [append_wp_toNat bs s room] at hc
  by_cases hlo : s.wp.toNat ≤ c
  · exact append_read_congr_of_le hwp hlo hc
  · rw [append_read, append_read, hwp, if_neg (by omega), if_neg (by omega)]
    exact hbuf c (by omega)

/-- The checksum engine gives the same result on states that agree below `WP`, if it reads only there. -/
theorem withPrefix_congr {n : Nat} {s s' t : State} {k : List Byte → State} (k' : List Byte → State)
    (hn : n ≤ s.wp.toNat) (hbuf : ∀ a, a < s.wp.toNat → s'.buf.read a = s.buf.read a)
    (h : withPrefix n s k = .next t) : ∃ bs, t = k bs ∧ withPrefix n s' k' = .next (k' bs) := by
  obtain ⟨bs, hbs, ht⟩ := (withPrefix_next_iff _ _ _ _).1 h
  have hread : s'.buf.readSeq 0 n = s.buf.readSeq 0 n :=
    Memory.readSeq_congr fun c _ hc => hbuf c (by omega)
  exact ⟨bs, ht, (withPrefix_next_iff _ _ _ _).2 ⟨bs, hread.trans hbs, rfl⟩⟩

/-- What it means that `s` goes to `t` and `s'` to `t'` with one result: the same `WP` and bytes below it, `SeqErr` in
both or in neither, the same `ACC` or both kept. -/
def SameResult (s s' t t' : State) : Prop :=
  ∃ r, t'.wp = t.wp ∧ (∀ a, a < t.wp.toNat → t'.buf.read a = t.buf.read a) ∧
    t.seqErr = (s.seqErr || r) ∧ t'.seqErr = (s'.seqErr || r) ∧
    (t'.acc = t.acc ∨ (t.acc = s.acc ∧ t'.acc = s'.acc))

/-- States that agree on `WP` and on the bytes below it give one result. -/
theorem exec_sameResult {i : Instr} {s s' t : State} (hwp : s'.wp = s.wp)
    (hbuf : ∀ a, a < s.wp.toNat → s'.buf.read a = s.buf.read a) (h : exec i s = .next t) :
    ∃ t', exec i s' = .next t' ∧ SameResult s s' t t' := by
  cases actionAt i s.wp with
  | drops _ run =>
    rw [run s rfl] at h
    cases h
    exact ⟨_, run s' hwp, true, hwp, hbuf, by simp, by simp, .inr ⟨rfl, rfl⟩⟩
  | appends bs _ room run =>
    rw [run s rfl] at h
    cases h
    exact ⟨_, run s' hwp, false, by simp [hwp], fun _ => append_read_congr hwp hbuf room, by simp, by simp,
      .inr ⟨rfl, rfl⟩⟩
  | beginsFrame c _ run =>
    rw [run s] at h
    cases h
    exact ⟨_, run s', false, rfl, fun _ _ => rfl, by simp, by simp, .inr ⟨rfl, rfl⟩⟩
  | appendsChecksum _ position run =>
    rw [run s rfl] at h
    obtain ⟨bs, rfl, hrun⟩ := withPrefix_congr (fun bs => setAcc (cksum bs) (append [cksum bs] s'))
      (by rw [position]; decide) hbuf h
    have room : s.wp.toNat + [cksum bs].length ≤ 29 := by rw [position]; exact le_rfl
    exact ⟨_, (run s' hwp).trans hrun, false, by simp [hwp], fun _ => append_read_congr hwp hbuf room,
      by simp, by simp, .inl rfl⟩
  | checksFrame _ position run =>
    rw [run s rfl] at h
    obtain ⟨bs, rfl, hrun⟩ := withPrefix_congr (fun bs => setAcc (cksum bs) s') (by rw [position]; decide) hbuf h
    exact ⟨_, (run s' hwp).trans hrun, false, hwp, hbuf, by simp, by simp, .inl rfl⟩
  | buildsFrame bs _ _ run =>
    rw [run s] at h
    cases h
    exact ⟨_, run s', false, rfl, fun _ _ => rfl, by simp, by simp, .inl rfl⟩

/-- The bytes that a command other than `CSUM` and `CHK` writes need only the same `WP`. -/
theorem exec_writes_same_bytes {i : Instr} {s s' t : State} (hwp : s'.wp = s.wp)
    (hop : i.opcode ∉ [Opcode.csum, Opcode.chk]) (h : exec i s = .next t) :
    ∃ t', exec i s' = .next t' ∧ t'.wp = t.wp ∧
      ∀ a, (s.wp.toNat ≤ a ∨ i.opcode ∈ [Opcode.start, Opcode.build]) → a < t.wp.toNat →
        t'.buf.read a = t.buf.read a := by
  cases actionAt i s.wp with
  | drops unlisted run =>
    rw [run s rfl] at h
    cases h
    refine ⟨_, run s' hwp, hwp, fun a hwritten ha => ?_⟩
    rcases hwritten with hlo | hkind
    · exact absurd ha (Nat.not_lt.2 hlo)
    · exact absurd (performedAt_of_opcode (by simpa using hkind)) unlisted
  | appends bs kind room run =>
    rw [run s rfl] at h
    cases h
    refine ⟨_, run s' hwp, by simp [hwp], fun a hwritten ha => ?_⟩
    rw [append_wp_toNat bs s room] at ha
    rcases hwritten with hlo | hkind
    · exact append_read_congr_of_le hwp hlo ha
    · exact absurd ((by decide : [Opcode.start, Opcode.build] ⊆ _) hkind) kind
  | beginsFrame c _ run =>
    rw [run s] at h
    cases h
    exact ⟨_, run s', rfl, fun _ _ _ => rfl⟩
  | appendsChecksum kind _ _ | checksFrame kind _ _ => simp [kind] at hop
  | buildsFrame bs _ _ run =>
    rw [run s] at h
    cases h
    exact ⟨_, run s', rfl, fun _ _ _ => rfl⟩

/-- `BUILD` gives the same `BUF`, `WP` and `ACC` from any two states. -/
theorem build_result_unique {i : Instr} {s s' t t' : State} (hop : i.opcode = .build) (h : exec i s = .next t)
    (h' : exec i s' = .next t') : t'.buf = t.buf ∧ t'.wp = t.wp ∧ t'.acc = t.acc := by
  cases actionAt i 0#5 with
  | buildsFrame bs _ _ run =>
    rw [run] at h h'
    cases h
    cases h'
    exact ⟨rfl, rfl, rfl⟩
  | drops unlisted _ => exact absurd (performedAt_of_opcode (.inr hop)) unlisted
  | appends _ kind _ _ => exact absurd (by simp [hop]) kind
  | beginsFrame _ kind _ | appendsChecksum kind _ _ | checksFrame kind _ _ => cases hop.symm.trans kind

/-- Settles O55: the action of a command is fixed by its operand and `WP`, and reads no byte from `WP` on. -/
theorem noHiddenState : Obligations.NoHiddenState := by
  refine ⟨fun i s s' t hwp hbuf h => ?_, fun i s s' t => exec_writes_same_bytes,
    fun i s s' t t' => build_result_unique⟩
  obtain ⟨t', ht', r, hresult⟩ := exec_sameResult hwp hbuf h
  exact ⟨t', r, ht', hresult⟩

end Sys2Proof.Machine

end

/-! # Proofs: where commands write in the buffer, and what the read port returns (R42, R43) -/

section

namespace Sys2Proof.Machine

/-! ### Writes to the buffer (R43) -/

/-- `append` within its precondition does what R43 says. -/
theorem appended_append (bs : List Byte) (s : State) (room : s.wp.toNat + bs.length ≤ 29) :
    Appended bs s (append bs s) := by
  refine ⟨append_wp_toNat bs s room, fun i hi => ?_, fun c hc => ?_⟩
  · rw [append_read, if_pos (by omega), Nat.add_sub_cancel_left]
  · rw [append_read, if_neg (by omega)]

/-- `append` within its precondition keeps the canonical form. -/
theorem append_buf_wf {bs : List Byte} {s : State} (hs : s.buf.wf = true) (room : s.wp.toNat + bs.length ≤ 29) :
    (append bs s).buf.wf = true := by
  rw [append_buf]
  exact Memory.wf_writeSeq _ _ _ hs room

/-- What a command does to the buffer: nothing, an `append` within its precondition, or, for `START` and `BUILD`, an
`append` to the empty buffer. -/
theorem exec_buf_cases {i : Instr} {s t : State} (h : exec i s = .next t) :
    t.buf = s.buf ∨ (∃ bs, s.wp.toNat + bs.length ≤ 29 ∧ t.buf = (append bs s).buf) ∨
      ((i.opcode = .start ∨ i.opcode = .build) ∧
        ∃ bs : List Byte, bs.length ≤ 29 ∧ t.buf = (append bs (beginFrame s)).buf) := by
  cases actionAt i s.wp with
  | drops _ run =>
    rw [run s rfl] at h
    cases h
    exact .inl rfl
  | appends bs _ room run =>
    rw [run s rfl] at h
    cases h
    exact .inr (.inl ⟨bs, room, rfl⟩)
  | beginsFrame c kind run =>
    rw [run s] at h
    cases h
    exact .inr (.inr ⟨.inl kind, [Config.marker, c], by simp, rfl⟩)
  | appendsChecksum _ position run =>
    rw [run s rfl] at h
    obtain ⟨bs, -, rfl⟩ := (withPrefix_next_iff _ _ _ _).1 h
    exact .inr (.inl ⟨[cksum bs], by rw [position]; exact le_rfl, rfl⟩)
  | checksFrame _ _ run =>
    rw [run s rfl] at h
    obtain ⟨bs, -, rfl⟩ := (withPrefix_next_iff _ _ _ _).1 h
    exact .inl rfl
  | buildsFrame bs kind full run =>
    rw [run s] at h
    cases h
    exact .inr (.inr ⟨.inr kind, bs ++ [cksum bs], by simp [full], rfl⟩)

/-- No command leaves the canonical form. -/
theorem exec_keeps_buf_wf {i : Instr} {s t : State} (hs : s.buf.wf = true) (h : exec i s = .next t) :
    t.buf.wf = true := by
  rcases exec_buf_cases h with hbuf | ⟨bs, room, hbuf⟩ | ⟨-, bs, hlen, hbuf⟩ <;> rw [hbuf]
  · exact hs
  · exact append_buf_wf hs room
  · have room : (beginFrame s).wp.toNat + bs.length ≤ 29 := by simpa using hlen
    exact append_buf_wf rfl room

/-- No command but `START` and `BUILD` writes below `WP`. -/
theorem exec_read_below_wp {i : Instr} {s t : State} (h : exec i s = .next t) (hstart : i.opcode ≠ .start)
    (hbuild : i.opcode ≠ .build) {a : Nat} (ha : a < s.wp.toNat) : t.buf.read a = s.buf.read a := by
  rcases exec_buf_cases h with hbuf | ⟨bs, room, hbuf⟩ | ⟨hkind, -⟩
  · rw [hbuf]
  · obtain ⟨-, -, outside⟩ := appended_append bs s room
    rw [hbuf]
    exact outside a (.inl ha)
  · exact absurd hkind (not_or.2 ⟨hstart, hbuild⟩)

/-! ### The read port (R42) -/

/-- A read changes none of the five state elements. -/
theorem memRead_sameElements (addr : BitVec 5) (s : State) : SameElements s (memRead addr s) := by
  rcases memRead_cases addr s with ⟨b, -, hread⟩ | ⟨-, hread⟩ <;> rw [hread]
  · exact ⟨giveByte_buf b s, giveByte_wp b s, giveByte_acc b s, giveByte_seqErr b s, giveByte_illCmd b s⟩
  · exact ⟨giveUnspecified_buf s, giveUnspecified_wp s, giveUnspecified_acc s, giveUnspecified_seqErr s,
      giveUnspecified_illCmd s⟩

/-- A read returns one byte, the one of the read-port map where the map specifies it. -/
theorem memRead_returned (addr : BitVec 5) (s : State) :
    ∃ b, (memRead addr s).returned = s.returned ++ [b] ∧ ∀ v, portByte addr s = some v → b = v := by
  rcases memRead_cases addr s with ⟨b, hport, hread⟩ | ⟨hport, hread⟩ <;> rw [hread]
  · exact ⟨b, giveByte_returned b s, fun v hv => Option.some.inj (hport.symm.trans hv)⟩
  · refine ⟨_, giveUnspecified_returned s, fun v hv => ?_⟩
    rw [hport] at hv
    cases hv

/-- The read-port map below `WP`. -/
theorem portByte_of_lt_wp {addr : BitVec 5} {s : State} (hbuf : addr.toNat ≤ 28) (hwp : addr.toNat < s.wp.toNat) :
    portByte addr s = s.buf.read addr.toNat := by
  rw [portByte, if_pos hbuf, if_pos hwp]

/-- The read-port map at the three register addresses: `STATUS`, `WPR`, `ACCR`. -/
theorem portByte_status (s : State) : portByte 0x1D#5 s = some (statusByte s) := rfl
theorem portByte_wpr (s : State) : portByte 0x1E#5 s = some (wprByte s) := rfl
theorem portByte_accr (s : State) : portByte 0x1F#5 s = some s.acc := rfl

/-- `VALID` by the value of `WP` (R25). -/
theorem valid_eq_decide (s : State) : s.valid = decide (s.wp.toNat = 29) := by
  rw [State.valid, Bool.beq_eq_decide_eq, decide_eq_decide]
  exact BitVec.toNat_inj.symm

/-- Settles O47: the byte that a read returns is that of the read-port map at each address. -/
theorem readReturnsOneByteAndChangesNothing : Obligations.ReadReturnsOneByteAndChangesNothing := by
  intro addr s
  obtain ⟨b, hreturned, hport⟩ := memRead_returned addr s
  refine ⟨b, memRead addr s, rfl, memRead_sameElements addr s, hreturned, fun v hbuf hwp hv => ?_, ?_, ?_, ?_⟩
  · exact hport v ((portByte_of_lt_wp hbuf hwp).trans hv)
  · rintro rfl
    rw [← valid_eq_decide]
    exact hport _ (portByte_status s)
  · rintro rfl
    exact hport _ (portByte_wpr s)
  · rintro rfl
    exact hport _ (portByte_accr s)

/-! ### The buffer under every event (R40, R43) -/

/-- No event leaves the canonical form. -/
theorem hostEvent_keeps_buf_wf {e : HostEvent} {s t : State} (hs : s.buf.wf = true) (h : hostEvent e s = .next t) :
    t.buf.wf = true := by
  rcases hostEvent_next_cases e s t h with
    ⟨_, _, _, _, hexec⟩ | ⟨_, _, _, _, rfl⟩ | ⟨addr, _, rfl⟩ | ⟨_, rfl⟩
  · exact exec_keeps_buf_wf hs hexec
  · rwa [raise_buf]
  · obtain ⟨hbuf, -⟩ := memRead_sameElements addr s
    rwa [hbuf]
  · rw [resetEvent_buf]
    rfl

/-- Settles O46: every write is an `append` within its precondition, and only `START` and `BUILD` begin anew. -/
theorem appendStaysInsideTheBuffer : Obligations.AppendStaysInsideTheBuffer :=
  ⟨appended_append, fun _ _ _ => hostEvent_keeps_buf_wf,
    fun _ _ _ h hstart hbuild _ => exec_read_below_wp h hstart hbuild⟩

end Sys2Proof.Machine

end

/-! # Proofs: the words of formats S and B spell their commands (R64 to R66) -/

section

namespace Sys2Proof

/-! ### Format S -/

/-- Bits 71:64 (R64). -/
theorem topByte_wordS (op : Opcode) (opd : Bits64) : (wordS op opd).topByte = op.code :=
  BitVec.extractLsb'_append_eq_left

/-- Bits 63:0 (R64). -/
theorem field_wordS (op : Opcode) (opd : Bits64) : (wordS op opd).field 0 64 = opd :=
  BitVec.extractLsb'_append_eq_right

/-! ### Format B -/

/-- The build word with its length left as the sum of its field widths (R65): in this form the library's rules for a
slice of `x ++ y` apply to it. The proofs below keep the sum from being added up to 488 (`-Nat.reduceAdd`). -/
theorem encode_build (cam : Bits32) (pitch yaw roll x y z : Bits64) (zoom focus : Bits32) :
    encode (.build cam pitch yaw roll x y z zoom focus) =
      ⟨8 + 32 + 64 + 64 + 64 + 64 + 64 + 64 + 32 + 32,
        Opcode.build.code ++ cam ++ pitch ++ yaw ++ roll ++ x ++ y ++ z ++ zoom ++ focus⟩ := rfl

/-- Bits 487:480 (R65). -/
theorem topByte_encode_build (cam : Bits32) (pitch yaw roll x y z : Bits64) (zoom focus : Bits32) :
    (encode (.build cam pitch yaw roll x y z zoom focus)).topByte = Opcode.build.code := by
  rw [encode_build]
  simp [-Nat.reduceAdd, CmdWord.topByte, BitVec.extractLsb'_append_eq_of_le]

/-- A field of the build word starts where the fields below it end: these are dropped one by one, and the field is what
then stands lowest (R65). -/
theorem operandsOf_encode_build (cam : Bits32) (pitch yaw roll x y z : Bits64) (zoom focus : Bits32) :
    operandsOf .build (encode (.build cam pitch yaw roll x y z zoom focus)) =
      .build cam pitch yaw roll x y z zoom focus := by
  rw [encode_build]
  simp [-Nat.reduceAdd, operandsOf, CmdWord.field, BitVec.extractLsb'_append_eq_of_le,
    BitVec.extractLsb'_append_eq_right]

/-! ### The word of a command, and decoding it -/

/-- The top byte of a command's word is its opcode value (R66). -/
theorem topByte_encode (i : Instr) : (encode i).topByte = i.opcode.code := by
  cases i with
  | build => exact topByte_encode_build ..
  | _ => exact topByte_wordS ..

/-- The length of a command's word is that of its format (R64, R65). -/
theorem width_encode (i : Instr) : (encode i).width = i.opcode.format.length := by
  cases i <;> rfl

/-- The operand fields of a command's word are its operands (R64, R65). -/
theorem operandsOf_encode (i : Instr) : operandsOf i.opcode (encode i) = i := by
  cases i with
  | build => exact operandsOf_encode_build ..
  | _ => simp only [Instr.opcode, encode, operandsOf, field_wordS]

/-- The word of a command decodes to it. -/
theorem decode_encode (i : Instr) : decode (encode i) = .ok i :=
  (decode_eq_ok_iff _ _).2 ⟨i.opcode, topByte_encode i, width_encode i, operandsOf_encode i⟩

/-- Settles O6: each word of the statement, written there in bits, is the one that `encode` gives for its command. -/
theorem formatsPlaceOpcodeAndOperands : Obligations.FormatsPlaceOpcodeAndOperands :=
  ⟨fun opd => decode_encode (.start opd),
    fun opd => decode_encode (.encrot opd),
    fun opd => decode_encode (.encpos opd),
    fun opd => decode_encode (.encint opd),
    fun opd => decode_encode (.rsvd opd),
    fun opd => decode_encode (.csum opd),
    fun opd => decode_encode (.chk opd),
    fun cam pitch yaw roll x y z zoom focus => decode_encode (.build cam pitch yaw roll x y z zoom focus)⟩

end Sys2Proof

end

/-! # Proofs: the field encoder (R90 to R102) -/

section

namespace Sys2Proof.Machine

/-! ### A field and its three bytes (R92, R93) -/

/-- Byte `n / 8` of a field, by shift and mask, is its slice. -/
theorem setWidth_shift_and_mask (f : Bits24) (n : Nat) : ((f >>> n) &&& 0xFF#24).setWidth 8 = f.extractLsb' n 8 := by
  have mask : (0xFF#24).setWidth 8 = BitVec.allOnes 8 := by decide
  rw [BitVec.setWidth_and, mask, BitVec.and_allOnes]
  apply BitVec.eq_of_getLsbD_eq
  intro i hi
  simp [hi]

/-- The bytes that the encoder emits are the slices of the field (R93). -/
theorem be3_eq_fieldBytes (f : Bits24) : be3 f = fieldBytes f := by
  have low : (f &&& 0xFF#24).setWidth 8 = f.extractLsb' 0 8 := by
    simpa using setWidth_shift_and_mask f 0
  rw [be3, fieldBytes, setWidth_shift_and_mask, setWidth_shift_and_mask, low]

/-- The three slices of a field make it up again. -/
theorem fieldBytes_append_eq_self (f : Bits24) :
    f.extractLsb' 16 8 ++ f.extractLsb' 8 8 ++ f.extractLsb' 0 8 = f := by
  rw [BitVec.extractLsb'_append_extractLsb'_eq_extractLsb' (by decide),
    BitVec.extractLsb'_append_extractLsb'_eq_extractLsb' (by decide), BitVec.extractLsb'_eq_self]

/-- Settles O18: each emitted byte is a slice, and adjoining slices join. -/
theorem fieldsAreEmittedBigEndian : Obligations.FieldsAreEmittedBigEndian :=
  fun f => ⟨be3_eq_fieldBytes f, fieldBytes_append_eq_self f⟩

/-- The low 24 bits of a word are its signed value modulo `2^24`. -/
theorem extractLsb'_eq_to24_toInt {w : Nat} (x : BitVec w) (hw : 24 ≤ w) : x.extractLsb' 0 24 = to24 x.toInt := by
  calc x.extractLsb' 0 24
      = x.setWidth 24 := (BitVec.setWidth_eq_extractLsb' hw).symm
    _ = x.signExtend 24 := (BitVec.signExtend_eq_setWidth_of_le x hw).symm

/-! ### What the three field commands share (R98 to R100) -/

/-- At a field offset a field command appends the bytes of its field and changes nothing else. -/
theorem appendField_appended {f : Bits24} {s : State} (h : s.wp.toNat ∈ [2, 5, 8, 11, 14, 17, 20, 23]) :
    Appended (fieldBytes f) s (appendField f s) ∧ (appendField f s).acc = s.acc ∧ SameFlags s (appendField f s) := by
  rw [appendField_of_mem h, be3_eq_fieldBytes]
  exact ⟨appended_append _ s (fieldOffset_room h), rfl, rfl, rfl⟩

/-- Anywhere else it is dropped. -/
theorem appendField_dropped {f : Bits24} {s : State} (h : s.wp.toNat ∉ [2, 5, 8, 11, 14, 17, 20, 23]) :
    Dropped s (appendField f s) := by
  rw [appendField_of_not_mem h]
  exact dropped_raise_seqErr s

/-- Settles O21: the field is a slice of the operand's low 32 bits, and so their signed value modulo `2^24`. -/
theorem encintAppendsIntegerField : Obligations.EncintAppendsIntegerField := by
  intro opd s
  refine ⟨intField (intOperand opd), _, rfl, ?_, ?_, appendField_appended, appendField_dropped⟩
  · exact BitVec.extractLsb'_extractLsb'_of_le (by decide)
  · exact extractLsb'_eq_to24_toInt _ (by decide)

/-! ### The exact value of an operand (R90, R91, R95) -/

/-- The significand of a finite operand, with the leading bit that normal operands imply. -/
def fpSignificand (d : Bits64) : Nat := if fpExp d = 0 then fpFrac d else 2 ^ 52 + fpFrac d

/-- The base-2 logarithm of the unit in the last place of a finite operand. -/
def fpUnitExp (d : Bits64) : ℤ := if fpExp d = 0 then -1074 else (fpExp d : ℤ) - 1075

/-- The exact magnitude of the scaled product. -/
def scaledMagnitude (kind : FpKind) (d : Bits64) : ℚ :=
  (fpSignificand d : ℚ) * 2 ^ (fpUnitExp d + Config.scaleExp kind)

theorem fpSignificand_lt (d : Bits64) : fpSignificand d < 2 ^ 53 := by
  have := fpFrac_lt d
  unfold fpSignificand
  split <;> omega

theorem scaleExp_le (kind : FpKind) : Config.scaleExp kind ≤ 15 := by cases kind <;> decide

theorem scaledMagnitude_nonneg (kind : FpKind) (d : Bits64) : 0 ≤ scaledMagnitude kind d := by
  unfold scaledMagnitude
  positivity

/-- Sign and magnitude of an operand. -/
theorem real_eq (d : Bits64) :
    real d = (if fpSign d then -1 else 1) * ((fpSignificand d : ℚ) * 2 ^ fpUnitExp d) := by
  unfold real fpSignificand fpUnitExp
  split_ifs <;> rfl

/-- Sign and magnitude of the scaled product. -/
theorem real_mul_scale (kind : FpKind) (d : Bits64) :
    real d * (Config.scale kind : ℚ) = (if fpSign d then -1 else 1) * scaledMagnitude kind d := by
  rw [real_eq, scaledMagnitude, scale_eq, zpow_add₀ two_ne_zero, zpow_natCast]
  push_cast
  ring

theorem abs_real_mul_scale (kind : FpKind) (d : Bits64) :
    |real d| * (Config.scale kind : ℚ) = scaledMagnitude kind d := by
  have sign : |if fpSign d then (-1 : ℚ) else 1| = 1 := by split <;> simp
  calc |real d| * (Config.scale kind : ℚ)
      = |real d * (Config.scale kind : ℚ)| := by rw [abs_mul, Nat.abs_cast]
    _ = scaledMagnitude kind d := by
        rw [real_mul_scale, abs_mul, sign, one_mul, abs_of_nonneg (scaledMagnitude_nonneg kind d)]

/-! ### Which operands are covered (R94, R101) -/

theorem scaledMagnitude_lt (kind : FpKind) (d : Bits64) (h : fpExp d + Config.scaleExp kind < 2047) :
    scaledMagnitude kind d < 2 ^ 1024 := by
  have hsig : (fpSignificand d : ℚ) < 2 ^ 53 := by exact_mod_cast fpSignificand_lt d
  have hexp : fpUnitExp d + Config.scaleExp kind ≤ 971 := by
    have := scaleExp_le kind
    unfold fpUnitExp
    split <;> omega
  calc scaledMagnitude kind d
      ≤ fpSignificand d * 2 ^ (971 : ℤ) :=
        mul_le_mul_of_nonneg_left (zpow_le_zpow_right₀ one_le_two hexp) (Nat.cast_nonneg _)
    _ < 2 ^ 53 * 2 ^ (971 : ℤ) := mul_lt_mul_of_pos_right hsig (by positivity)
    _ = 2 ^ 1024 := by rw [← zpow_natCast, ← zpow_natCast, ← zpow_add₀ two_ne_zero]; rfl

theorem le_scaledMagnitude (kind : FpKind) (d : Bits64) (h : 2047 ≤ fpExp d + Config.scaleExp kind) :
    2 ^ 1024 ≤ scaledMagnitude kind d := by
  have hnormal : fpExp d ≠ 0 := by have := scaleExp_le kind; omega
  have hsig : (2 : ℚ) ^ 52 ≤ fpSignificand d := by
    rw [fpSignificand, if_neg hnormal]
    exact_mod_cast Nat.le_add_right _ _
  have hexp : 972 ≤ fpUnitExp d + Config.scaleExp kind := by
    rw [fpUnitExp, if_neg hnormal]
    omega
  calc (2 : ℚ) ^ 1024
      = (2 : ℚ) ^ 52 * 2 ^ (972 : ℤ) := by rw [← zpow_natCast, ← zpow_natCast, ← zpow_add₀ two_ne_zero]; rfl
    _ ≤ (fpSignificand d : ℚ) * 2 ^ (972 : ℤ) := mul_le_mul_of_nonneg_right hsig (by positivity)
    _ ≤ scaledMagnitude kind d :=
        mul_le_mul_of_nonneg_left (zpow_le_zpow_right₀ one_le_two hexp) (Nat.cast_nonneg _)

/-- R101's test on the exponent decides which operands R90 and R91 cover. -/
theorem covered_iff (kind : FpKind) (d : Bits64) : Covered kind d ↔ fpExp d + Config.scaleExp kind < 2047 := by
  rw [Covered, abs_real_mul_scale]
  constructor
  · rintro ⟨-, hlt⟩
    exact not_le.1 fun hle => absurd hlt (not_lt.2 (le_scaledMagnitude kind d hle))
  · intro h
    refine ⟨bne_iff_ne.2 fun hinf => ?_, scaledMagnitude_lt kind d h⟩
    omega

theorem not_covered_iff (kind : FpKind) (d : Bits64) :
    ¬ Covered kind d ↔ 2047 ≤ fpExp d + Config.scaleExp kind :=
  (covered_iff kind d).not.trans not_lt

/-- Where R90 and R91 do not apply, the field is the open value (R101). -/
theorem fpField_of_not_covered {kind : FpKind} {d : Bits64} (h : ¬ Covered kind d) :
    fpField kind d = Config.nonfinite kind d :=
  fpField_of_overflow kind d ((not_covered_iff kind d).1 h)

/-! ### The integer procedure computes the exact product (R96) -/

theorem trunc_of_nonneg {q : ℚ} (h : 0 ≤ q) : trunc q = ⌊q⌋ := if_pos h

theorem trunc_neg_of_nonneg {q : ℚ} (h : 0 ≤ q) : trunc (-q) = -⌊q⌋ := by
  rw [← Int.ceil_neg]
  rcases h.eq_or_lt with rfl | hpos
  · rfl
  · exact if_neg (by linarith)

/-- Truncation toward zero acts on the magnitude. -/
theorem scaledValue_eq (kind : FpKind) (d : Bits64) :
    scaledValue kind d = if fpSign d then -⌊scaledMagnitude kind d⌋ else ⌊scaledMagnitude kind d⌋ := by
  rw [scaledValue, real_mul_scale]
  split
  · rw [neg_one_mul, trunc_neg_of_nonneg (scaledMagnitude_nonneg kind d)]
  · rw [one_mul, trunc_of_nonneg (scaledMagnitude_nonneg kind d)]

/-- A shift to the left is exact. -/
theorem floor_mul_two_zpow_natCast (m n : Nat) : ⌊(m : ℚ) * 2 ^ (n : ℤ)⌋ = ((m * 2 ^ n : ℕ) : ℤ) := by
  rw [zpow_natCast]
  exact_mod_cast Int.floor_natCast (R := ℚ) (m * 2 ^ n)

/-- A shift to the right rounds down. -/
theorem floor_mul_two_zpow_neg_natCast (m n : Nat) : ⌊(m : ℚ) * 2 ^ (-(n : ℤ))⌋ = ((m / 2 ^ n : ℕ) : ℤ) := by
  rw [zpow_neg, zpow_natCast, ← div_eq_mul_inv]
  simpa using Rat.floor_intCast_div_natCast (m : ℤ) (2 ^ n)

/-- The shifts of R96 compute the low 24 bits of `⌊m * 2^sh⌋`: from 24 places on to the left they are zero, and from
53 places on to the right a 53-bit significand is gone. -/
theorem mag24_eq_floor {m : Nat} (hm : m < 2 ^ 53) (sh : ℤ) :
    (mag24 m sh : ℤ) = ⌊(m : ℚ) * 2 ^ sh⌋ % 2 ^ 24 := by
  obtain ⟨n, rfl | rfl⟩ := sh.eq_nat_or_neg
  · rw [floor_mul_two_zpow_natCast]
    norm_cast
    by_cases hn : 24 ≤ n
    · have hdvd : 2 ^ 24 ∣ m * 2 ^ n := (pow_dvd_pow 2 hn).mul_left m
      rw [mag24, if_pos (by omega), Nat.mod_eq_zero_of_dvd hdvd]
    · rw [mag24, if_neg (by omega), if_pos (by omega), Int.toNat_natCast]
  · rw [floor_mul_two_zpow_neg_natCast]
    norm_cast
    rcases Nat.eq_zero_or_pos n with rfl | hpos
    · simp [mag24]
    by_cases hn : n < 53
    · rw [mag24, if_neg (by omega), if_neg (by omega), if_pos (by omega), neg_neg, Int.toNat_natCast]
    · have hgone : m / 2 ^ n = 0 :=
        Nat.div_eq_of_lt (hm.trans_le (Nat.pow_le_pow_right two_pos (not_lt.1 hn)))
      rw [mag24, if_neg (by omega), if_neg (by omega), if_neg (by omega), hgone, Nat.zero_mod]

/-- `to24` depends on the residue modulo `2^24` alone. -/
theorem to24_congr {x y : ℤ} (h : x % 2 ^ 24 = y % 2 ^ 24) : to24 x = to24 y :=
  BitVec.eq_of_toNat_eq (by simpa using congrArg Int.toNat h)

/-- The magnitude that the machine computes, of subnormal operands too, whose shift leaves nothing. -/
theorem fpField_eq_signed_mag24 {kind : FpKind} {d : Bits64} (h : fpExp d + Config.scaleExp kind < 2047) :
    fpField kind d = to24 (if fpSign d then -mag24 (fpSignificand d) (fpUnitExp d + Config.scaleExp kind)
      else mag24 (fpSignificand d) (fpUnitExp d + Config.scaleExp kind)) := by
  have hk := scaleExp_le kind
  by_cases h0 : fpExp d = 0
  · have hmag : ∀ m, mag24 m (fpUnitExp d + Config.scaleExp kind) = 0 := by
      intro m
      rw [fpUnitExp, if_pos h0, mag24, if_neg (by omega), if_neg (by omega), if_neg (by omega)]
    rw [fpField_of_exp_zero kind d h0, hmag]
    split <;> rfl
  · rw [fpField_of_normal kind d h0 h, fpSignificand, if_neg h0, fpUnitExp, if_neg h0]
    have hlt := mag24_lt (2 ^ 52 + fpFrac d) ((fpExp d : ℤ) - 1075 + Config.scaleExp kind)
    split
    · rw [← BitVec.ofInt_natCast]
      exact to24_congr (by omega)
    · exact (BitVec.ofInt_natCast 24 _).symm

/-- The integer procedure of R96 computes the field of R90 and R91 on every operand they cover. -/
theorem fpField_eq_to24_scaledValue {kind : FpKind} {d : Bits64} (h : Covered kind d) :
    fpField kind d = to24 (scaledValue kind d) := by
  have hmag : (mag24 (fpSignificand d) (fpUnitExp d + Config.scaleExp kind) : ℤ) =
      ⌊scaledMagnitude kind d⌋ % 2 ^ 24 := mag24_eq_floor (fpSignificand_lt d) _
  rw [fpField_eq_signed_mag24 ((covered_iff kind d).1 h), hmag, scaledValue_eq]
  apply to24_congr
  split <;> omega

/-! ### The floating-point commands -/

/-- Settles O19: the field function is exact on covered operands and open on the others. -/
theorem encrotAppendsRotationField : Obligations.EncrotAppendsRotationField := by
  intro opd s
  refine ⟨rotField opd, _, rfl, fun h => ?_, fpField_of_not_covered, appendField_appended, appendField_dropped⟩
  exact fpField_eq_to24_scaledValue h

/-- Settles O20: as for rotations, with the scale of positions. -/
theorem encposAppendsPositionField : Obligations.EncposAppendsPositionField := by
  intro opd s
  refine ⟨posField opd, _, rfl, fun h => ?_, fpField_of_not_covered, appendField_appended, appendField_dropped⟩
  exact fpField_eq_to24_scaledValue h

/-- Settles O23: the exponent test, and a field command on the open value. -/
theorem nonfiniteOperandsComplete : Obligations.NonfiniteOperandsComplete := by
  refine ⟨not_covered_iff, fun kind d => fpField_of_not_covered, fun d s hd hs => ?_, fun d s hd hs => ?_⟩
  · have hopen : rotField d = Config.nonfinite .rot d := fpField_of_not_covered hd
    obtain ⟨happended, -, hflags⟩ := appendField_appended (f := rotField d) hs
    exact ⟨_, rfl, hopen ▸ happended, hflags⟩
  · have hopen : posField d = Config.nonfinite .pos d := fpField_of_not_covered hd
    obtain ⟨happended, -, hflags⟩ := appendField_appended (f := posField d) hs
    exact ⟨_, rfl, hopen ▸ happended, hflags⟩

/-! ### Overflow (R97, R102) -/

theorem toNat_to24 (z : ℤ) : ((to24 z).toNat : ℤ) = z % 2 ^ 24 := by
  rw [BitVec.toNat_ofInt]
  exact Int.toNat_of_nonneg (Int.emod_nonneg _ (by decide))

/-- Settles O24: `to24` wraps and is the identity on the signed range; the commands' flags are those of `append`. -/
theorem overflowWrapsAndNeverClamps : Obligations.OverflowWrapsAndNeverClamps := by
  refine ⟨fun kind d hd => ?_, fun d s hs => ?_⟩
  · rw [fpField_eq_to24_scaledValue hd]
    refine ⟨toNat_to24 _, fun hlo hhi => ?_, fun htop => ?_⟩
    · exact BitVec.toInt_ofInt_eq_self (by decide) (by omega) (by omega)
    · rw [htop]
      decide
  · obtain ⟨-, -, hrot⟩ := appendField_appended (f := rotField d) hs
    obtain ⟨-, -, hpos⟩ := appendField_appended (f := posField d) hs
    exact ⟨⟨_, rfl, hrot⟩, _, rfl, hpos⟩

/-- Settles O25: the exact field, and a 64-bit word that holds the scaled value, of which it is the low 24 bits. -/
theorem productsBeyond64BitsFollowTheProperty : Obligations.ProductsBeyond64BitsFollowTheProperty := by
  intro kind d hd
  have hfield := fpField_eq_to24_scaledValue hd
  refine ⟨hfield, fun hrange => ?_⟩
  obtain ⟨hlo, hhi⟩ := abs_lt.1 hrange
  have hv : (BitVec.ofInt 64 (scaledValue kind d)).toInt = scaledValue kind d :=
    BitVec.toInt_ofInt_eq_self (by decide) hlo.le hhi
  exact ⟨_, hv, by rw [extractLsb'_eq_to24_toInt _ (by decide), hv, hfield]⟩

end Sys2Proof.Machine

end

/-! # Proofs: the frame assembler (R62, R110 to R116) -/

section

namespace Sys2Proof.Machine

/-! ### `RSVD` (R111) -/

/-- At offset 26 `RSVD` appends the two reserved bytes. -/
theorem exec_rsvd_of_wp {s : State} (h : s.wp.toNat = 26) (opd : Bits64) :
    exec (.rsvd opd) s = .next (append [0x00#8, 0x00#8] s) := by
  have hw : s.wp = BitVec.ofNat 5 Config.rsvOff := BitVec.eq_of_toNat_eq h
  exact congrArg _ (if_pos hw)

/-- Settles O40: at offset 26 an `append` within its precondition, anywhere else the exception of the legality table. -/
theorem rsvdAppendsTwoZeroBytes : Obligations.RsvdAppendsTwoZeroBytes := by
  intro opd s
  by_cases hw : s.wp.toNat = 26
  · have happ : Appended [0x00#8, 0x00#8] s (append [0x00#8, 0x00#8] s) :=
      appended_append _ s (by rw [hw]; decide)
    have ⟨hwp, hbytes, _⟩ := happ
    rw [hw] at hwp hbytes
    exact ⟨_, exec_rsvd_of_wp hw opd,
      fun _ => ⟨happ, hbytes 0 (by decide), hbytes 1 (by decide), hwp, rfl, rfl, rfl⟩, fun hn => absurd hw hn⟩
  · have hn : ¬ performedAt (.rsvd opd) s.wp.toNat := by simpa [performedAt] using hw
    exact ⟨_, exec_of_not_performedAt hn, fun h => absurd h hw, fun _ => dropped_raise_seqErr s⟩

/-! ### `START` (R110) -/

/-- `START` from any state. -/
theorem exec_start (opd : Bits64) (s : State) :
    ∃ t, exec (.start opd) s = .next t ∧ t.wp = 2#5 ∧ t.acc = s.acc ∧ SameFlags s t ∧
      ∀ a, t.buf.read a = [Config.marker, cameraByte opd][a]? :=
  ⟨_, rfl, rfl, rfl, ⟨rfl, rfl⟩, append_beginFrame_read _ s⟩

/-- Settles O39: the bytes are those of a two-byte sequence in the empty buffer. -/
theorem startBeginsAFrame : Obligations.StartBeginsAFrame := by
  intro opd s
  obtain ⟨t, hexec, hwp, hacc, hflags, hread⟩ := exec_start opd s
  refine ⟨t, hexec, hwp, hread 0, hread 1, fun a ha => ?_, hacc, hflags, ?_⟩
  · exact (hread a).trans (List.getElem?_eq_none ha)
  · rw [State.valid, hwp]
    rfl

/-! ### The layout of the frame (R62) -/

/-- The eight fields of a frame in the order of the layout. -/
def frameFields (pitch yaw roll x y z : Bits64) (zoom focus : Bits32) : List Bits24 :=
  [rotField pitch, rotField yaw, rotField roll, posField x, posField y, posField z, intField zoom, intField focus]

/-- The frame is the marker, the camera byte, the fields, the reserved bytes and the checksum. -/
theorem frame_eq (cam : Bits32) (pitch yaw roll x y z : Bits64) (zoom focus : Bits32) :
    frame cam pitch yaw roll x y z zoom focus =
      Config.marker :: cameraByte cam :: ((frameFields pitch yaw roll x y z zoom focus).flatMap fieldBytes ++
        [0x00#8, 0x00#8, cksum (body cam pitch yaw roll x y z zoom focus)]) := by
  nth_rw 1 [frame, body]
  simp [frameFields, be3_eq_fieldBytes]

/-- Field `n` stands from offset `3 * n` of the fields on. -/
theorem flatMap_fieldBytes_getElem? {fs : List Bits24} {n : Nat} {f : Bits24} (h : fs[n]? = some f) (rest : List Byte)
    {k : Nat} (hk : k < 3) : (fs.flatMap fieldBytes ++ rest)[3 * n + k]? = (fieldBytes f)[k]? := by
  induction fs generalizing n with
  | nil => simp at h
  | cons g gs ih =>
    rw [List.flatMap_cons, List.append_assoc]
    cases n with
    | zero =>
      obtain rfl : g = f := Option.some.inj h
      rw [Nat.mul_zero, Nat.zero_add, List.getElem?_append_left hk]
    | succ n =>
      have past : 3 * (n + 1) + k = (fieldBytes g).length + (3 * n + k) := by
        change _ = 3 + _
        omega
      rw [past, List.getElem?_append_right (Nat.le_add_right _ _), Nat.add_sub_cancel_left]
      exact ih h

/-- Field `n` of the frame stands at offset `2 + 3 * n`. -/
theorem frame_getElem?_field {pitch yaw roll x y z : Bits64} {zoom focus : Bits32} {n : Nat} {f : Bits24}
    (h : (frameFields pitch yaw roll x y z zoom focus)[n]? = some f) (cam : Bits32) {k : Nat} (hk : k < 3) :
    (frame cam pitch yaw roll x y z zoom focus)[2 + k + 3 * n]? = (fieldBytes f)[k]? := by
  have past : 2 + k + 3 * n = 3 * n + k + 1 + 1 := by omega
  rw [frame_eq, past, List.getElem?_cons_succ, List.getElem?_cons_succ, flatMap_fieldBytes_getElem? h _ hk]

/-! ### `BUILD` (R112) -/

/-- `VALID` is a view of `WP` (R25). -/
theorem valid_iff (s : State) : s.valid = true ↔ s.wp = 29#5 := beq_iff_eq

/-- A sequence that stands in the buffer is what a sequence read gives. -/
theorem Memory.readSeq_eq_some {m : Memory} {a : Nat} {bs : List Byte}
    (h : ∀ i, i < bs.length → m.read (a + i) = bs[i]?) : m.readSeq a bs.length = some bs := by
  induction bs generalizing a with
  | nil => rfl
  | cons b rest ih =>
    have hhead : m.read a = some b := h 0 (Nat.succ_pos _)
    have htail : m.readSeq (a + 1) rest.length = some rest := ih fun i hi => by
      rw [Nat.add_assoc, Nat.add_comm 1 i]
      exact h (i + 1) (Nat.succ_lt_succ hi)
    simp only [List.length_cons, Memory.readSeq, hhead, htail]

/-- `BUILD` from any state. -/
theorem exec_build (cam : Bits32) (pitch yaw roll x y z : Bits64) (zoom focus : Bits32) (s : State) :
    ∃ t, exec (.build cam pitch yaw roll x y z zoom focus) s = .next t ∧ t.wp = 29#5 ∧
      t.acc = cksum (body cam pitch yaw roll x y z zoom focus) ∧ SameFlags s t ∧
      ∀ a, t.buf.read a = (frame cam pitch yaw roll x y z zoom focus)[a]? := by
  refine ⟨_, rfl, ?_, setAcc_acc _ _, ⟨?_, ?_⟩, fun a => ?_⟩
  · rw [setAcc_wp, append_wp, beginFrame_wp, frame_length]
    rfl
  · rw [setAcc_seqErr, append_seqErr, beginFrame_seqErr]
  · rw [setAcc_illCmd, append_illCmd, beginFrame_illCmd]
  · rw [setAcc_buf, append_beginFrame_read]

/-- Settles O41: the buffer reads as the frame, whose layout is that of R62. -/
theorem buildWritesTheWholeFrame : Obligations.BuildWritesTheWholeFrame := by
  intro cam pitch yaw roll x y z zoom focus s
  obtain ⟨t, hexec, hwp, hacc, hflags, hread⟩ := exec_build cam pitch yaw roll x y z zoom focus s
  have field {n : Nat} {f : Bits24} (hf : (frameFields pitch yaw roll x y z zoom focus)[n]? = some f) {k : Nat}
      (hk : k < 3) : t.buf.read (2 + k + 3 * n) = (fieldBytes f)[k]? :=
    (hread _).trans (frame_getElem?_field hf cam hk)
  have bodyRead : t.buf.readSeq 0 28 = some (body cam pitch yaw roll x y z zoom focus) :=
    Memory.readSeq_eq_some fun i hi => by
      rw [hread, Nat.zero_add, frame, List.getElem?_append_left hi]
  refine ⟨t, hexec, congrArg BitVec.toNat hwp, (valid_iff t).2 hwp, hflags, ?_, ?_,
    fun n f hf => ⟨field (k := 0) hf (by decide), field (k := 1) hf (by decide), field (k := 2) hf (by decide)⟩,
    ?_, ?_, ⟨_, bodyRead, ?_, hacc⟩, fun a ha => (hread a).trans (List.getElem?_eq_none ha)⟩
  all_goals
    rw [hread, frame_eq]
    rfl

/-! ### The camera operand (R116) -/

theorem toNat_to8 (z : ℤ) : ((to8 z).toNat : ℤ) = z % 256 := by
  rw [BitVec.toNat_ofInt]
  exact Int.toNat_of_nonneg (Int.emod_nonneg _ (by decide))

/-- The low 8 bits of an integer's two's complement do not depend on its width. -/
theorem cameraByte_ofInt {w : Nat} (hw : 8 ≤ w) (z : ℤ) : cameraByte (BitVec.ofInt w z) = to8 z := by
  have hdvd : (256 : ℤ) ∣ ((2 ^ w : ℕ) : ℤ) := by exact_mod_cast pow_dvd_pow 2 hw
  calc cameraByte (BitVec.ofInt w z)
      = (BitVec.ofInt w z).setWidth 8 := (BitVec.setWidth_eq_extractLsb' hw).symm
    _ = to8 (BitVec.ofInt w z).toNat := by rw [to8, BitVec.ofInt_natCast, BitVec.ofNat_toNat]
    _ = to8 z := to8_congr <| by
        rw [BitVec.toNat_ofInt, Int.toNat_of_nonneg (Int.emod_nonneg _ (by positivity)), Int.emod_emod_of_dvd z hdvd]

/-- Settles O42: byte 1 of a new frame is the camera byte, and that byte is `to8` of the operand's integer. -/
theorem cameraOperandWrapsModulo256 : Obligations.CameraOperandWrapsModulo256 := by
  refine ⟨fun w z hw => ?_, fun z s => ?_, fun z p w r px py pz zm fc s => ?_⟩
  · rw [cameraByte_ofInt hw, toNat_to8]
  · obtain ⟨t, hexec, -, -, hflags, hread⟩ := exec_start (BitVec.ofInt 64 z) s
    refine ⟨t, hexec, ?_, hflags⟩
    rw [hread, cameraByte_ofInt (by decide)]
    rfl
  · obtain ⟨t, hexec, -, -, hflags, hread⟩ := exec_build (BitVec.ofInt 32 z) p w r px py pz zm fc s
    refine ⟨t, hexec, ?_, hflags⟩
    rw [hread, frame_eq, cameraByte_ofInt (by decide)]
    rfl

/-! ### A valid frame stays (R115) -/

/-- A full buffer has no room for another byte: at `WP = 29` no command but `START` and `BUILD` moves anything. -/
theorem exec_keeps_valid_frame {i : Instr} {s t : State} (hs : s.wp = 29#5) (h : exec i s = .next t)
    (hstart : i.opcode ≠ .start) (hbuild : i.opcode ≠ .build) : t.buf = s.buf ∧ t.wp = s.wp := by
  cases actionAt i s.wp with
  | drops _ run =>
    rw [run s rfl] at h
    cases h
    exact ⟨rfl, rfl⟩
  | appends bs _ room run =>
    rw [hs] at room
    obtain rfl : bs = [] := List.eq_nil_of_length_eq_zero (Nat.le_zero.1 (Nat.le_of_add_le_add_left room))
    rw [run s rfl] at h
    cases h
    exact ⟨rfl, BitVec.add_zero _⟩
  | beginsFrame _ kind _ => exact absurd kind hstart
  | appendsChecksum _ position _ => exact absurd (hs.symm.trans position) (by decide)
  | checksFrame _ _ run =>
    rw [run s rfl] at h
    obtain ⟨bs, -, rfl⟩ := (withPrefix_next_iff _ _ _ _).1 h
    exact ⟨rfl, rfl⟩
  | buildsFrame _ kind _ _ => exact absurd kind hbuild

/-- No event but reset, `START` and `BUILD` touches a valid frame. -/
theorem hostEvent_keeps_valid_frame {e : HostEvent} {s t : State} (hs : s.wp = 29#5) (h : hostEvent e s = .next t)
    (hreset : e ≠ .reset)
    (hnew : ∀ w i, e = .command w → decode w = .ok i → i.opcode ≠ .start ∧ i.opcode ≠ .build) :
    t.buf = s.buf ∧ t.wp = s.wp := by
  rcases hostEvent_next_cases e s t h with
    ⟨w, i, he, hd, hexec⟩ | ⟨_, _, _, _, rfl⟩ | ⟨addr, _, rfl⟩ | ⟨he, _⟩
  · obtain ⟨hstart, hbuild⟩ := hnew w i he hd
    exact exec_keeps_valid_frame hs hexec hstart hbuild
  · exact ⟨raise_buf _ s, raise_wp _ s⟩
  · obtain ⟨hbuf, hwp, -⟩ := memRead_sameElements addr s
    exact ⟨hbuf, hwp⟩
  · exact absurd he hreset

/-- Settles O45: `VALID` is 1 exactly at `WP = 29`, where nothing but a new frame or reset moves `WP` or `BUF`. -/
theorem validFrameStaysUntilNewFrame : Obligations.ValidFrameStaysUntilNewFrame := by
  intro e s t hvalid h hreset hnew
  obtain ⟨hbuf, hwp⟩ := hostEvent_keeps_valid_frame ((valid_iff s).1 hvalid) h hreset hnew
  exact ⟨hbuf, hwp, (valid_iff t).2 (hwp.trans ((valid_iff s).1 hvalid))⟩

end Sys2Proof.Machine

end

/-! # Proofs: the commands of the checksum engine (R133, R134) -/

section

namespace Sys2Proof.Machine

/-- The checksum engine on a defined prefix: whatever uses its bytes is given those of the prefix. -/
theorem withPrefix_bytes {n : Nat} {s : State} (h : DefinedBelow n s) :
    ∃ bs, (∀ k, withPrefix n s k = .next (k bs)) ∧ s.buf.readSeq 0 n = some bs ∧ bs.length = n ∧
      ∀ i, i < n → s.buf.read i = bs[i]? := by
  obtain ⟨bs, hread⟩ := Memory.readSeq_isSome s.buf 0 n fun i hi => by simpa using h i hi
  obtain ⟨hlen, hbytes⟩ := Memory.readSeq_spec s.buf 0 n bs hread
  simp only [Nat.zero_add] at hbytes
  exact ⟨bs, fun k => (withPrefix_next_iff n s _ k).2 ⟨bs, hread, rfl⟩, hread, hlen, hbytes⟩

/-- At offset 28 `CSUM` runs the engine over the 28 bytes and appends the result. -/
theorem exec_csum_of_wp {s : State} (h : s.wp.toNat = 28) (opd : Bits64) :
    exec (.csum opd) s = withPrefix 28 s fun bs => setAcc (cksum bs) (append [cksum bs] s) :=
  if_pos (BitVec.eq_of_toNat_eq h)

/-- At offset 29 `CHK` runs the engine over all 29 bytes. -/
theorem exec_chk_of_wp {s : State} (h : s.wp.toNat = 29) (opd : Bits64) :
    exec (.chk opd) s = withPrefix 29 s fun bs => setAcc (cksum bs) s :=
  if_pos (BitVec.eq_of_toNat_eq h)

/-- A command that the legality table does not list is dropped (R151). -/
theorem exec_dropped {i : Instr} {s : State} (h : ¬ performedAt i s.wp.toNat) :
    ∃ t, exec i s = .next t ∧ Dropped s t :=
  ⟨_, exec_of_not_performedAt h, dropped_raise_seqErr s⟩

/-- Settles O36: at 28 the engine's bytes are the prefix, and the one byte after it is an `append` that fills the
buffer. -/
theorem csumAppendsTheChecksumByte : Obligations.CsumAppendsTheChecksumByte := by
  refine fun opd s => ⟨fun hw hdef => ?_, fun hw => exec_dropped (by simpa [performedAt] using hw)⟩
  obtain ⟨bs, hrun, -, hlen, hbytes⟩ := withPrefix_bytes hdef
  have room : s.wp.toNat + [cksum bs].length ≤ 29 := by rw [hw]; exact le_rfl
  have full : (append [cksum bs] s).wp.toNat = 29 := by rw [append_wp_toNat _ s room, hw]; rfl
  exact ⟨bs, _, (exec_csum_of_wp hw opd).trans (hrun _), hlen, hbytes, appended_append _ s room, setAcc_acc _ _,
    ⟨rfl, rfl⟩, (valid_iff _).2 (BitVec.eq_of_toNat_eq full)⟩

/-- Settles O37: at 29 the engine's bytes are the frame, whose checksum is 0 under the invariants. -/
theorem chkEvaluatesTheWholeFrame : Obligations.ChkEvaluatesTheWholeFrame := by
  refine fun opd s => ⟨fun hw hdef => ?_, fun hw => exec_dropped (by simpa [performedAt] using hw)⟩
  obtain ⟨bs, hrun, hread, hlen, hbytes⟩ := withPrefix_bytes hdef
  exact ⟨bs, _, (exec_chk_of_wp hw opd).trans (hrun _), hlen, hbytes, setAcc_acc _ _, setAcc_buf _ _, setAcc_wp _ _,
    ⟨rfl, rfl⟩, fun hinv => hinv.cksum_frame hw hread⟩

end Sys2Proof.Machine

end

/-! # Proofs: the two exceptions and the registers that show them (R151 to R153) -/

section

namespace Sys2Proof

/-- The opcodes 0x01 to 0x07 are those of format S (R64, R66). -/
theorem exists_opcode_format_s {c : Byte} (hlow : 1 ≤ c.toNat) (hhigh : c.toNat ≤ 7) :
    ∃ op : Opcode, c = op.code ∧ op.format = .s := by
  have hc : c = 1#8 ∨ c = 2#8 ∨ c = 3#8 ∨ c = 4#8 ∨ c = 5#8 ∨ c = 6#8 ∨ c = 7#8 := by bv_omega
  rcases hc with rfl | rfl | rfl | rfl | rfl | rfl | rfl
  · exact ⟨.start, rfl, rfl⟩
  · exact ⟨.encrot, rfl, rfl⟩
  · exact ⟨.encpos, rfl, rfl⟩
  · exact ⟨.encint, rfl, rfl⟩
  · exact ⟨.rsvd, rfl, rfl⟩
  · exact ⟨.csum, rfl, rfl⟩
  · exact ⟨.chk, rfl, rfl⟩

/-- A legal word has an opcode at its top and the length of that opcode's format (R68, R70). -/
theorem exists_opcode_of_legal {w : CmdWord} (h : w.legal = true) :
    ∃ op : Opcode, w.topByte = op.code ∧ w.width = op.format.length := by
  simp only [CmdWord.legal, Bool.or_eq_true, Bool.and_eq_true, beq_iff_eq, decide_eq_true_eq] at h
  rcases h with ⟨⟨hwidth, hlow⟩, hhigh⟩ | ⟨hwidth, htop⟩
  · obtain ⟨op, hop, hformat⟩ := exists_opcode_format_s hlow hhigh
    exact ⟨op, hop, by rw [hwidth, hformat]; rfl⟩
  · exact ⟨.build, BitVec.eq_of_toNat_eq htop, hwidth⟩

/-- A legal word decodes: the converse of `legal_of_decode_eq_ok`. -/
theorem decode_of_legal {w : CmdWord} (h : w.legal = true) : ∃ i, decode w = .ok i := by
  obtain ⟨op, htop, hlen⟩ := exists_opcode_of_legal h
  exact ⟨_, (decode_eq_ok_iff w _).2 ⟨op, htop, hlen, rfl⟩⟩

end Sys2Proof

namespace Sys2Proof.Machine

/-! ### `IllCmd` (R152, R155) -/

/-- An illegal word raises `IllCmd`, whatever the reason it does not decode. -/
theorem deliver_of_not_legal {w : CmdWord} (h : w.legal = false) (s : State) :
    deliver w s = .next (raise .illCmd s) := by
  cases hd : decode w with
  | ok i => exact absurd (legal_of_decode_eq_ok hd) (by simp [h])
  | error err => exact deliver_of_decode_error hd s

/-- No command touches `ILLCMD`: a performed one keeps both flags, a dropped one sets the other. -/
theorem exec_keeps_illCmd {i : Instr} {s t : State} (h : exec i s = .next t) : t.illCmd = s.illCmd := by
  by_cases hp : performedAt i s.wp.toNat
  · obtain ⟨-, hill⟩ := sameFlags_of_performedAt hp h
    exact hill
  · obtain rfl := Host.Outcome.next.inj ((exec_of_not_performedAt hp).symm.trans h)
    exact raise_seqErr_illCmd s

/-- Settles O13: an illegal word's outcome is `raise .illCmd`; a legal word's is that of a command. -/
theorem onlyIllegalWordsRaiseIllCmd : Obligations.OnlyIllegalWordsRaiseIllCmd := by
  refine ⟨rfl, fun w s hl => ?_, fun w s t hl ht => ?_⟩
  · exact ⟨_, deliver_of_not_legal hl s, raise_illCmd_illCmd s, raise_buf _ s, raise_wp _ s, raise_acc _ s,
      raise_illCmd_seqErr s⟩
  · obtain ⟨i, hd⟩ := decode_of_legal hl
    exact exec_keeps_illCmd ((deliver_of_decode_ok hd s).symm.trans ht)

/-! ### `SeqErr` (R151) -/

/-- With the bytes below `WP` defined (R21) every command answers a next state: of its six actions only the two that
run the checksum engine could stop, and their prefix ends at `WP`. -/
theorem exec_completes_of_definedBelow {s : State} (hdef : DefinedBelow s.wp.toNat s) (i : Instr) :
    ∃ t, exec i s = .next t := by
  cases actionAt i s.wp with
  | drops _ run => exact ⟨_, run s rfl⟩
  | appends bs _ _ run => exact ⟨_, run s rfl⟩
  | beginsFrame c _ run => exact ⟨_, run s⟩
  | buildsFrame bs _ _ run => exact ⟨_, run s⟩
  | appendsChecksum _ position run =>
    rw [position] at hdef
    obtain ⟨bs, hprefix, -⟩ := withPrefix_bytes hdef
    exact ⟨_, (run s rfl).trans (hprefix _)⟩
  | checksFrame _ position run =>
    rw [position] at hdef
    obtain ⟨bs, hprefix, -⟩ := withPrefix_bytes hdef
    exact ⟨_, (run s rfl).trans (hprefix _)⟩

/-- Settles O14: where the table does not list `WP` the command is dropped; where it does, the command completes and
keeps the flags. -/
theorem legalityTableDecidesSeqErr : Obligations.LegalityTableDecidesSeqErr := by
  refine ⟨rfl, fun i s => exec_dropped, fun i s hp hdef => ?_⟩
  obtain ⟨t, ht⟩ := exec_completes_of_definedBelow hdef i
  exact ⟨t, ht, sameFlags_of_performedAt hp ht⟩

/-! ### `STATUS` and `WPR` (R25, R153) -/

/-- `STATUS` bit by bit: `VALID`, `SEQERR` and `ILLCMD` from bit 0 on, and zeros above. -/
theorem statusByte_getLsbD (s : State) (n : Nat) :
    (statusByte s).getLsbD n = [s.valid, s.seqErr, s.illCmd].getD n false := by
  rw [statusByte, BitVec.getLsbD_append, BitVec.getLsbD_append, BitVec.getLsbD_append]
  match n with
  | 0 | 1 | 2 => simp
  | n + 3 => simp

/-- The zeros that `WPR` has above `WP` do not change its value. -/
theorem wprByte_toNat (s : State) : (wprByte s).toNat = s.wp.toNat := by
  rw [wprByte, BitVec.toNat_append]
  simp

/-- Settles O17: each flag is the bit of `STATUS` that its cause code names, and the registers are views of the
state. -/
theorem statusRegistersShowTheState : Obligations.StatusRegistersShowTheState := by
  refine ⟨fun e => ?_, rfl, rfl, fun s => statusByte_getLsbD s 1, fun s => statusByte_getLsbD s 2, fun s => ?_,
    fun s => ?_, wprByte_toNat, fun s => rfl, statusByte_resetEvent State.reset, rfl, rfl⟩
  · cases e with
    | seqErr => exact .inl rfl
    | illCmd => exact .inr rfl
  · have hbit : (statusByte s).getLsbD 0 = s.valid := statusByte_getLsbD s 0
    rw [hbit, valid_eq_decide, decide_eq_true_eq]
  · apply BitVec.eq_of_getLsbD_eq
    intro j _
    rw [BitVec.getLsbD_extractLsb', statusByte_getLsbD, Nat.add_comm 3 j]
    simp

end Sys2Proof.Machine

end

/-! # Proofs: decoding and encoding are inverse to each other, on the legal words (R64 to R71) -/

section

namespace Sys2Proof

/-! ### From a word to its command and back (R71) -/

/-- A word is its top byte followed by its other bits: in format S these are the one operand field (R64). -/
theorem topByte_append_field (w : CmdWord) (hw : w.width = 72) : ⟨72, w.topByte ++ w.field 0 64⟩ = w := by
  obtain ⟨width, bits⟩ := w
  obtain rfl : width = 72 := hw
  refine congrArg (CmdWord.mk 72) ?_
  calc bits.extractLsb' 64 8 ++ bits.extractLsb' 0 64
      = bits.extractLsb' 0 72 := BitVec.extractLsb'_append_extractLsb'_eq_extractLsb' rfl
    _ = bits := BitVec.extractLsb'_eq_self

/-- In format B the slices of the nine operand fields adjoin each other and the top byte (R65). -/
theorem topByte_append_fields (w : CmdWord) (hw : w.width = 488) :
    ⟨8 + 32 + 64 + 64 + 64 + 64 + 64 + 64 + 32 + 32,
      w.topByte ++ w.field 448 32 ++ w.field 384 64 ++ w.field 320 64 ++ w.field 256 64 ++ w.field 192 64 ++
        w.field 128 64 ++ w.field 64 64 ++ w.field 32 32 ++ w.field 0 32⟩ = w := by
  obtain ⟨width, bits⟩ := w
  obtain rfl : width = 488 := hw
  refine congrArg (CmdWord.mk 488) ?_
  have top : (CmdWord.mk 488 bits).topByte = bits.extractLsb' 480 8 := rfl
  rw [top]
  simp only [CmdWord.field]
  iterate 9 rw [BitVec.extractLsb'_append_extractLsb'_eq_extractLsb' (by decide)]
  exact BitVec.extractLsb'_eq_self

/-- Reading the operand fields of a word of the right opcode and length loses no bit of it. -/
theorem encode_operandsOf {op : Opcode} {w : CmdWord} (htop : w.topByte = op.code)
    (hlen : w.width = op.format.length) : encode (operandsOf op w) = w := by
  cases op with
  | build =>
    rw [operandsOf, encode_build, ← htop]
    exact topByte_append_fields w hlen
  | _ =>
    simp only [operandsOf, encode, wordS, ← htop]
    exact topByte_append_field w hlen

/-- Settles O8: the word of a command has its opcode, its length and its operands. -/
theorem decodeEncodeRoundTrip : Obligations.DecodeEncodeRoundTrip := fun i _ => decode_encode i

/-- Settles O9: what a word decodes to is its operand fields, and these with its opcode are all of it. -/
theorem encodeDecodeRoundTrip : Obligations.EncodeDecodeRoundTrip := by
  intro w i h
  obtain ⟨op, htop, hlen, rfl⟩ := (decode_eq_ok_iff w i).1 h
  exact encode_operandsOf htop hlen

/-- Settles O10: the decoder accepts legal words only, and each of them. -/
theorem decodableWordsAreTheLegalWords : Obligations.DecodableWordsAreTheLegalWords :=
  fun _ => ⟨fun ⟨_, h⟩ => legal_of_decode_eq_ok h, decode_of_legal⟩

/-! ### Words of the opcode table (R75) -/

/-- The decoder reads from a word of the table the command whose word it is, and no other. -/
theorem decodeTableWord_eq_some_iff (nbits n : Nat) (i : Instr) :
    decodeTableWord nbits n = some i ↔ encode i = CmdWord.ofNat nbits n := by
  have hok : decodeTableWord nbits n = some i ↔ decode (CmdWord.ofNat nbits n) = .ok i := by
    rw [decodeTableWord]
    cases decode (CmdWord.ofNat nbits n) <;> simp [Except.toOption]
  rw [hok]
  exact ⟨encodeDecodeRoundTrip _ i, fun h => h ▸ decode_encode i⟩

/-- The decoder reads nothing from an illegal word of the table. -/
theorem decodeTableWord_of_not_legal {nbits n : Nat} (h : (CmdWord.ofNat nbits n).legal = false) :
    decodeTableWord nbits n = none := by
  refine Option.eq_none_iff_forall_ne_some.2 fun i hi => ?_
  rw [← (decodeTableWord_eq_some_iff nbits n i).1 hi, legal_of_decode_eq_ok (decode_encode i)] at h
  cases h

/-- Settles O7: five of the words are those that the encoder writes for the commands, the other two are illegal. -/
theorem sampleWordsDecode : Obligations.SampleWordsDecode := by
  simp only [Obligations.SampleWordsDecode, decodeTableWord_eq_some_iff]
  refine ⟨by decide, by decide, by decide, by decide, by decide, decodeTableWord_of_not_legal (by decide),
    decodeTableWord_of_not_legal (by decide)⟩

end Sys2Proof

end

/-! # Proofs: the invariants of R32 -/

section

namespace Sys2Proof.Machine

/-! ### How `WP` moves (R22) -/

/-- What a performed command makes of `WP`. -/
def wpAfter (i : Instr) (wp : Nat) : Nat :=
  match i with
  | .start _ => 2
  | .encrot _ | .encpos _ | .encint _ => wp + 3
  | .rsvd _ => wp + 2
  | .csum _ => wp + 1
  | .chk _ => wp
  | .build _ _ _ _ _ _ _ _ _ => 29

/-- A field command at a field offset moves `WP` by three. -/
theorem appendField_wp {f : Bits24} {s : State} (h : s.wp.toNat ∈ [2, 5, 8, 11, 14, 17, 20, 23]) :
    (appendField f s).wp.toNat = s.wp.toNat + 3 := by
  obtain ⟨⟨hwp, -⟩, -⟩ := appendField_appended (f := f) h
  exact hwp

/-- `WP` after a performed command. -/
theorem exec_wp {i : Instr} {s t : State} (hp : performedAt i s.wp.toNat) (h : exec i s = .next t) :
    t.wp.toNat = wpAfter i s.wp.toNat := by
  cases i with
  | start opd =>
    obtain ⟨u, hexec, hwp, -⟩ := exec_start opd s
    obtain rfl := Host.Outcome.next.inj (hexec.symm.trans h)
    rw [hwp]
    rfl
  | encrot | encpos | encint =>
    obtain rfl := Host.Outcome.next.inj h
    exact appendField_wp (by simpa [performedAt] using hp)
  | rsvd opd =>
    have hw : s.wp.toNat = 26 := by simpa [performedAt] using hp
    obtain rfl := Host.Outcome.next.inj ((exec_rsvd_of_wp hw opd).symm.trans h)
    exact append_wp_toNat _ s (by rw [hw]; decide)
  | csum opd =>
    have hw : s.wp.toNat = 28 := by simpa [performedAt] using hp
    rw [exec_csum_of_wp hw] at h
    obtain ⟨bs, -, rfl⟩ := (withPrefix_next_iff _ _ _ _).1 h
    exact append_wp_toNat _ s (by rw [hw]; exact le_rfl)
  | chk opd =>
    have hw : s.wp.toNat = 29 := by simpa [performedAt] using hp
    rw [exec_chk_of_wp hw] at h
    obtain ⟨bs, -, rfl⟩ := (withPrefix_next_iff _ _ _ _).1 h
    rfl
  | build cam pitch yaw roll x y z zoom focus =>
    obtain ⟨u, hexec, hwp, -⟩ := exec_build cam pitch yaw roll x y z zoom focus s
    obtain rfl := Host.Outcome.next.inj (hexec.symm.trans h)
    rw [hwp]
    rfl

/-- A dropped command leaves `WP`. -/
theorem exec_wp_of_not_performedAt {i : Instr} {s t : State} (hp : ¬ performedAt i s.wp.toNat)
    (h : exec i s = .next t) : t.wp = s.wp := by
  obtain rfl := Host.Outcome.next.inj ((exec_of_not_performedAt hp).symm.trans h)
  exact raise_wp _ s

/-- Three bytes after a field offset stands the next field or the reserved bytes. -/
theorem fieldOffset_add_three_mem_wpValues {n : Nat} (h : n ∈ [2, 5, 8, 11, 14, 17, 20, 23]) : n + 3 ∈ wpValues :=
  (by decide : ∀ n ∈ [2, 5, 8, 11, 14, 17, 20, 23], n + 3 ∈ wpValues) n h

/-- Where a command is performed, it takes `WP` to one of the twelve values (R22). -/
theorem wpAfter_mem_wpValues {i : Instr} {n : Nat} (hp : performedAt i n) : wpAfter i n ∈ wpValues := by
  cases i with
  | start | build => simp [wpAfter, wpValues]
  | encrot | encpos | encint => exact fieldOffset_add_three_mem_wpValues (by simpa [performedAt] using hp)
  | rsvd | csum | chk =>
    simp only [performedAt, beq_iff_eq] at hp
    simp [wpAfter, wpValues, hp]

/-- No event takes `WP` out of the twelve values. -/
theorem hostEvent_keeps_wpValues {e : HostEvent} {s t : State} (hs : s.wp.toNat ∈ wpValues)
    (h : hostEvent e s = .next t) : t.wp.toNat ∈ wpValues := by
  rcases hostEvent_next_cases e s t h with
    ⟨_, i, _, _, hexec⟩ | ⟨_, _, _, _, rfl⟩ | ⟨addr, _, rfl⟩ | ⟨_, rfl⟩
  · by_cases hp : performedAt i s.wp.toNat
    · rw [exec_wp hp hexec]
      exact wpAfter_mem_wpValues hp
    · rwa [exec_wp_of_not_performedAt hp hexec]
  · rwa [raise_wp]
  · obtain ⟨-, hwp, -⟩ := memRead_sameElements addr s
    rwa [hwp]
  · exact (by decide : 0 ∈ wpValues)

/-- Settles O53: `wpAfter` case by case; `CHK` moves nothing, so its `WP` is the same word. -/
theorem writePositionTakesOnlyLegalValues : Obligations.WritePositionTakesOnlyLegalValues := by
  refine ⟨fun i s t hp h => ?_, fun i s t => exec_wp_of_not_performedAt, fun e s t => hostEvent_keeps_wpValues⟩
  have hwp := exec_wp hp h
  cases i with
  | chk opd => exact BitVec.eq_of_toNat_eq hwp
  | _ => exact hwp

/-! ### The invariants under each operation -/

/-- The invariants are about `BUF` and `WP` alone. -/
theorem Invariants.congr {s t : State} (h : Invariants s) (hbuf : t.buf = s.buf) (hwp : t.wp = s.wp) :
    Invariants t where
  wpValue := by rw [hwp]; exact h.wpValue
  definedBytes := by rw [hbuf, hwp]; exact h.definedBytes
  markerByte := by rw [hbuf, hwp]; exact h.markerByte
  reservedBytes := by rw [hbuf, hwp]; exact h.reservedBytes
  checksumByte := by rw [hbuf, hwp]; exact h.checksumByte

/-- Settles O50: nothing is defined, and the other items say nothing of `WP = 0`. -/
theorem resetStateSatisfiesInvariants : Obligations.ResetStateSatisfiesInvariants where
  wpValue := by decide
  definedBytes := rfl
  markerByte := fun h => absurd h (by decide)
  reservedBytes := fun h => absurd h (by decide)
  checksumByte := fun h => absurd h (by decide)

/-- If the bytes below `WP` are the defined ones, `append` keeps it so (R21). -/
theorem append_definedBytes {bs : List Byte} {s : State} (h : s.buf.map Prod.fst = List.range s.wp.toNat)
    (room : s.wp.toNat + bs.length ≤ 29) :
    (append bs s).buf.map Prod.fst = List.range (append bs s).wp.toNat := by
  rw [append_buf, append_wp_toNat bs s room]
  exact Memory.keys_writeSeq _ _ _ h

/-- What `append` owes the invariants, once a frame has been begun: the reserved bytes when it passes them and the
checksum byte when it fills the buffer. -/
theorem Invariants.append_of_begun {s : State} (h : Invariants s) {bs : List Byte} (begun : 2 ≤ s.wp.toNat)
    (hvalue : s.wp.toNat + bs.length ∈ wpValues)
    (hreserved : 28 ≤ s.wp.toNat + bs.length →
      (append bs s).buf.read 26 = some 0x00#8 ∧ (append bs s).buf.read 27 = some 0x00#8)
    (hchecksum : s.wp.toNat + bs.length = 29 →
      ∃ pre, (append bs s).buf.readSeq 0 28 = some pre ∧ (append bs s).buf.read 28 = some (cksum pre)) :
    Invariants (append bs s) := by
  have room : s.wp.toNat + bs.length ≤ 29 := (by decide : ∀ n ∈ wpValues, n ≤ 29) _ hvalue
  have hwp := append_wp_toNat bs s room
  refine ⟨by rwa [hwp], append_definedBytes h.definedBytes room, fun _ => ?_, by rwa [hwp], by rwa [hwp]⟩
  rw [append_read, if_neg (by omega)]
  exact h.markerByte begun

/-- A field leaves the reserved bytes and the checksum to come. -/
theorem Invariants.append_field {s : State} (h : Invariants s) (f : Bits24)
    (hw : s.wp.toNat ∈ [2, 5, 8, 11, 14, 17, 20, 23]) : Invariants (append (be3 f) s) := by
  obtain ⟨hlow, hhigh⟩ : 2 ≤ s.wp.toNat ∧ s.wp.toNat ≤ 23 :=
    (by decide : ∀ n ∈ [2, 5, 8, 11, 14, 17, 20, 23], 2 ≤ n ∧ n ≤ 23) _ hw
  refine h.append_of_begun hlow (fieldOffset_add_three_mem_wpValues hw) (fun h28 => ?_) (fun h29 => ?_)
  · rw [be3_length] at h28
    omega
  · rw [be3_length] at h29
    omega

/-- `RSVD` writes the reserved bytes (R111). -/
theorem Invariants.append_reserved {s : State} (h : Invariants s) (hw : s.wp = 26#5) :
    Invariants (append [0x00#8, 0x00#8] s) := by
  refine h.append_of_begun (by rw [hw]; decide) (by rw [hw]; decide) (fun _ => ?_) (fun h29 => ?_)
  · rw [append_read, append_read, hw]
    exact ⟨rfl, rfl⟩
  · rw [hw] at h29
    exact absurd h29 (by decide)

/-- `CSUM` writes the checksum of the 28 bytes below it, which it leaves as they are (R133). -/
theorem Invariants.append_checksum {s : State} (h : Invariants s) (hw : s.wp = 28#5) {pre : List Byte}
    (hpre : s.buf.readSeq 0 28 = some pre) : Invariants (append [cksum pre] s) := by
  have below : ∀ c, c < 28 → (append [cksum pre] s).buf.read c = s.buf.read c := by
    intro c hc
    have hn : s.wp.toNat = 28 := by rw [hw]; rfl
    rw [append_read, if_neg (by omega)]
  refine h.append_of_begun (by rw [hw]; decide) (by rw [hw]; exact (by decide : 29 ∈ wpValues)) (fun _ => ?_)
    (fun _ => ⟨pre, ?_, ?_⟩)
  · rw [below 26 (by decide), below 27 (by decide)]
    exact h.reservedBytes (by rw [hw]; decide)
  · exact (Memory.readSeq_congr fun c _ hc => below c (by omega)).trans hpre
  · rw [append_read, hw]
    rfl

/-- `START` leaves the marker and the camera byte alone in the buffer (R110). -/
theorem invariants_start (c : Byte) (s : State) : Invariants (append [Config.marker, c] (beginFrame s)) := by
  have hwp : (append [Config.marker, c] (beginFrame s)).wp.toNat = 2 := rfl
  refine ⟨by rw [hwp]; decide, rfl, fun _ => rfl, fun h => ?_, fun h => ?_⟩
  all_goals
    rw [hwp] at h
    exact absurd h (by decide)

/-- `BUILD` leaves a frame with all that the invariants ask of it (R112). -/
theorem invariants_build (cam : Bits32) (pitch yaw roll x y z : Bits64) (zoom focus : Bits32) (s : State) :
    Invariants (setAcc (cksum (body cam pitch yaw roll x y z zoom focus))
      (append (frame cam pitch yaw roll x y z zoom focus) (beginFrame s))) := by
  obtain ⟨t, hexec, hwp, -, -, hmarker, -, -, h26, h27, ⟨pre, hpre, h28, -⟩, -⟩ :=
    buildWritesTheWholeFrame cam pitch yaw roll x y z zoom focus s
  have hrun : t = setAcc (cksum (body cam pitch yaw roll x y z zoom focus))
      (append (frame cam pitch yaw roll x y z zoom focus) (beginFrame s)) :=
    (Host.Outcome.next.inj hexec).symm
  rw [← hrun]
  refine ⟨by rw [hwp]; decide, ?_, fun _ => hmarker, fun _ => ⟨h26, h27⟩, fun _ => ⟨pre, hpre, h28⟩⟩
  rw [hrun, setAcc_buf, setAcc_wp]
  exact append_definedBytes rfl (by rw [beginFrame_wp, frame_length]; decide)

/-! ### The invariants under each step -/

/-- Every command keeps the invariants, whichever of its actions it takes. -/
theorem Invariants.exec_next {i : Instr} {s t : State} (h : Invariants s) (hexec : exec i s = .next t) :
    Invariants t := by
  rcases exec_next_cases i s t hexec with
    rfl | ⟨f, hw, rfl⟩ | ⟨hw, rfl⟩ | ⟨hw, bs, hbs, rfl⟩ | ⟨-, bs, -, rfl⟩ | ⟨c, rfl⟩ |
      ⟨cam, pitch, yaw, roll, x, y, z, zoom, focus, rfl⟩
  · exact h.congr (raise_buf _ s) (raise_wp _ s)
  · exact h.append_field f hw
  · exact h.append_reserved hw
  · exact (h.append_checksum hw hbs).congr (setAcc_buf _ _) (setAcc_wp _ _)
  · exact h.congr (setAcc_buf _ s) (setAcc_wp _ s)
  · exact invariants_start c s
  · exact invariants_build cam pitch yaw roll x y z zoom focus s

/-- Every event keeps the invariants. -/
theorem Invariants.hostEvent_next {e : HostEvent} {s t : State} (h : Invariants s) (hevent : hostEvent e s = .next t) :
    Invariants t := by
  rcases hostEvent_next_cases e s t hevent with
    ⟨_, _, _, _, hexec⟩ | ⟨_, _, _, _, rfl⟩ | ⟨addr, _, rfl⟩ | ⟨_, rfl⟩
  · exact h.exec_next hexec
  · exact h.congr (raise_buf _ s) (raise_wp _ s)
  · obtain ⟨hbuf, hwp, -⟩ := memRead_sameElements addr s
    exact h.congr hbuf hwp
  · exact resetStateSatisfiesInvariants.congr (resetEvent_buf s) (resetEvent_wp s)

/-- Settles O51: a step is an event, or nothing, on a state with the same `BUF` and `WP`. -/
theorem everyStepKeepsInvariants : Obligations.EveryStepKeepsInvariants := by
  intro s t h hstep
  rcases step_cases s with ⟨-, hs⟩ | ⟨e, rest, -, hs⟩
  · obtain rfl := Host.Outcome.next.inj (hs.symm.trans hstep)
    exact h
  · have htaken : Invariants (takeEvent rest s) := h.congr (takeEvent_buf rest s) (takeEvent_wp rest s)
    exact htaken.hostEvent_next (hs.symm.trans hstep)

/-! ### Valid frames (R114) -/

/-- Settles O44: a valid frame is the 28 bytes of the checksum invariant and, after them, their checksum. -/
theorem validFramesAreWellFormed : Obligations.ValidFramesAreWellFormed := by
  intro s h hvalid
  have hw : s.wp.toNat = 29 := congrArg BitVec.toNat ((valid_iff s).1 hvalid)
  obtain ⟨pre, hpre, hlast⟩ := h.checksumByte hw
  obtain ⟨hlen, -⟩ := Memory.readSeq_spec _ _ _ _ hpre
  have hread : s.buf.readSeq 0 29 = some (pre ++ [cksum pre]) :=
    Memory.readSeq_concat hpre (by rw [Nat.zero_add]; exact hlast)
  obtain ⟨hlength, hbytes⟩ := Memory.readSeq_spec _ _ _ _ hread
  simp only [Nat.zero_add] at hbytes
  obtain ⟨h26, h27⟩ := h.reservedBytes (by omega)
  refine ⟨pre ++ [cksum pre], (if_pos hvalid).trans hread, hlength, hbytes, ?_, ?_, ?_, ?_, cksum_concat_cksum pre⟩
  · exact (hbytes 0 (by decide)).symm.trans (h.markerByte (by omega))
  · exact (hbytes 26 (by decide)).symm.trans h26
  · exact (hbytes 27 (by decide)).symm.trans h27
  · rw [List.take_left' hlen]
    exact (hbytes 28 (by decide)).symm.trans hlast

end Sys2Proof.Machine

end

/-! # Proofs: the stream of host events (logs 1 to 3, 8, 14) -/

section

namespace Sys2Proof.Machine

/-- A step on a pending event. -/
theorem step_of_pending_cons {s : State} {e : HostEvent} {rest : List HostEvent} (h : s.pending = e :: rest) :
    step s = hostEvent e (takeEvent rest s) := by
  simp only [step, nextEvent, h]

/-- A step with nothing pending. -/
theorem step_of_pending_nil {s : State} (h : s.pending = []) : step s = .next s := by
  simp only [step, nextEvent, h]

/-- Settles O2: the two cases of a step. -/
theorem stepTakesOldestPendingEvent : Obligations.StepTakesOldestPendingEvent :=
  ⟨fun _ _ _ => step_of_pending_cons, fun _ => step_of_pending_nil⟩

/-- A step on a pending word that decodes. -/
theorem step_of_pending_command {s : State} {w : CmdWord} {rest : List HostEvent} {i : Instr}
    (h : s.pending = .command w :: rest) (hd : decode w = .ok i) : step s = exec i (takeEvent rest s) :=
  (step_of_pending_cons h).trans (deliver_of_decode_ok hd _)

/-- Settles O3: the event is the delivery of the word, and a word that decodes is executed. -/
theorem stepRunsDecodedCommand : Obligations.StepRunsDecodedCommand :=
  fun _ _ _ _ h hd _ => step_of_pending_command h hd

/-- Settles O4: the placed word is the oldest event, and taking it gives the original state back. -/
theorem placedWordIsRunNext : Obligations.PlacedWordIsRunNext := by
  intro s nbits w i h
  have hd : decode (CmdWord.ofNat nbits w) = .ok i := by
    rw [← (decodeTableWord_eq_some_iff nbits w i).1 h]
    exact decode_encode i
  have htaken : takeEvent s.pending (s.withFetchWord nbits w) = s := rfl
  exact (step_of_pending_command rfl hd).trans (congrArg (exec i) htaken)

/-- Settles O5: none of the operations that make up the six actions touches the host's fields. -/
theorem commandsKeepHostFields : Obligations.CommandsKeepHostFields := by
  intro i s t h
  cases actionAt i s.wp with
  | drops _ run | appends _ _ _ run =>
    obtain rfl := Host.Outcome.next.inj ((run s rfl).symm.trans h)
    exact ⟨rfl, rfl, rfl⟩
  | beginsFrame _ _ run | buildsFrame _ _ _ run =>
    obtain rfl := Host.Outcome.next.inj ((run s).symm.trans h)
    exact ⟨rfl, rfl, rfl⟩
  | appendsChecksum _ _ run | checksFrame _ _ run =>
    obtain ⟨bs, -, rfl⟩ := (withPrefix_next_iff _ _ _ _).1 ((run s rfl).symm.trans h)
    exact ⟨rfl, rfl, rfl⟩

/-- At or above `WP` the read-port map specifies nothing (R42). -/
theorem portByte_of_wp_le {addr : BitVec 5} {s : State} (hbuf : addr.toNat ≤ 28) (hwp : s.wp.toNat ≤ addr.toNat) :
    portByte addr s = none := by
  rw [portByte, if_pos hbuf, if_neg (not_lt.2 hwp)]

/-- Settles O48: where the map specifies nothing, a read gives an unspecified byte. -/
theorem undefinedReadDrawsAFreshByte : Obligations.UndefinedReadDrawsAFreshByte := by
  intro addr s hbuf hwp
  refine ⟨memRead addr s, rfl, memRead_sameElements addr s, ?_⟩
  rcases memRead_cases addr s with ⟨b, hb, -⟩ | ⟨-, hread⟩
  · rw [portByte_of_wp_le hbuf hwp] at hb
    cases hb
  · rw [hread]
    exact ⟨giveUnspecified_returned s, giveUnspecified_draws s⟩

end Sys2Proof.Machine

end

/-! # Proofs: what operands and repetition do not change, and where a command can stop (R46, R69, R150; log 6) -/

section

namespace Sys2Proof.Machine

/-! ### Operand bits that are not read (R67, R69) -/

/-- `ENCINT` reads the low 24 bits of its operand. -/
theorem intField_intOperand (opd : Bits64) : intField (intOperand opd) = opd.extractLsb' 0 24 :=
  BitVec.extractLsb'_extractLsb'_of_le (by decide)

/-- The bytes before the checksum depend on the camera's low 8 bits and the integers' low 24. -/
theorem body_congr {c c' : Bits32} {zm zm' fc fc' : Bits32} (hc : cameraByte c = cameraByte c')
    (hzm : intField zm = intField zm') (hfc : intField fc = intField fc') (p w r x y z : Bits64) :
    body c p w r x y z zm fc = body c' p w r x y z zm' fc' := by
  rw [body, body, hc, hzm, hfc]

/-- Settles O11: each command reads its operand through the slice that R67 gives it, or not at all. -/
theorem ignoredOperandBitsHaveNoEffect : Obligations.IgnoredOperandBitsHaveNoEffect := by
  refine ⟨fun a b s h => ?_, fun a b s h => ?_, fun a b s => rfl, fun a b s => rfl, fun a b s => rfl,
    fun c c' p w r x y z zm zm' fc fc' s hc hzm hfc => ?_⟩
  · have hbyte : cameraByte a = cameraByte b := h
    rw [exec, exec, execStart, execStart, hbyte]
  · rw [exec, exec, execEncint, execEncint, intField_intOperand, intField_intOperand, h]
  · rw [exec, exec, execBuild, execBuild, frame, frame, body_congr hc hzm hfc]

/-! ### Flags and operand values (R150) -/

/-- The table of R151 by opcode. -/
def performedAtOpcode (op : Opcode) (wp : Nat) : Bool :=
  match op with
  | .start | .build => true
  | .encrot | .encpos | .encint => [2, 5, 8, 11, 14, 17, 20, 23].contains wp
  | .rsvd => wp == 26
  | .csum => wp == 28
  | .chk => wp == 29

/-- Where a command is performed does not depend on its operands. -/
theorem performedAt_eq (i : Instr) (wp : Nat) : performedAt i wp = performedAtOpcode i.opcode wp := by
  cases i <;> rfl

/-- The flags after a command: as before where the table has it performed, `SEQERR` set elsewhere. -/
theorem exec_flags {i : Instr} {s t : State} (h : exec i s = .next t) :
    t.seqErr = (s.seqErr || !performedAt i s.wp.toNat) ∧ t.illCmd = s.illCmd := by
  refine ⟨?_, exec_keeps_illCmd h⟩
  by_cases hp : performedAt i s.wp.toNat
  · obtain ⟨hseq, -⟩ := sameFlags_of_performedAt hp h
    simp [hseq, hp]
  · obtain rfl := Host.Outcome.next.inj ((exec_of_not_performedAt hp).symm.trans h)
    simp [hp]

/-- Settles O16: only a byte that is not defined can stop a command, and the flags depend on opcode and `WP` alone. -/
theorem operandValuesNeverRaise : Obligations.OperandValuesNeverRaise := by
  refine ⟨fun i s hdef => exec_completes_of_definedBelow hdef i, fun i j s t u hop ht hu => ?_⟩
  obtain ⟨htseq, htill⟩ := exec_flags ht
  obtain ⟨huseq, huill⟩ := exec_flags hu
  rw [performedAt_eq, hop, ← performedAt_eq] at htseq
  exact ⟨huseq.trans htseq.symm, huill.trans htill.symm⟩

/-! ### Where the checksum engine stops (log 6) -/

/-- The checksum engine stops where a byte that it reads is not defined. -/
theorem withPrefix_of_not_definedBelow {n : Nat} {s : State} (h : ¬ DefinedBelow n s) (k : List Byte → State) :
    withPrefix n s k = .fault .undefinedBufferByte := by
  cases hread : s.buf.readSeq 0 n with
  | none => simp only [withPrefix, hread]
  | some bs =>
    obtain ⟨hlen, hbytes⟩ := Memory.readSeq_spec _ _ _ _ hread
    refine absurd (fun a ha => ?_) h
    rw [← Nat.zero_add a, hbytes a ha, List.getElem?_eq_getElem (hlen ▸ ha)]
    rfl

/-- Settles O38: the engine stops at an undefined byte that it reads, and under the invariants every command
completes. -/
theorem checksumEngineStopsOnlyAtUndefinedBytes : Obligations.ChecksumEngineStopsOnlyAtUndefinedBytes := by
  refine ⟨fun opd s hw h => ?_, fun opd s hw h => ?_, fun i s hinv hfault => ?_⟩
  · rw [exec_csum_of_wp hw, withPrefix_of_not_definedBelow h]
  · rw [exec_chk_of_wp hw, withPrefix_of_not_definedBelow h]
  · obtain ⟨t, ht⟩ := hinv.exec_completes i
    cases ht.symm.trans hfault

/-! ### Idempotence (R46) -/

/-- Settles O49: `START` and `BUILD` begin anew; `CHK` leaves `WP` and the bytes that it reads; and a second `SeqErr`
adds nothing. -/
theorem startBuildChkAreIdempotent : Obligations.StartBuildChkAreIdempotent := by
  intro i s t hop h
  cases actionAt i s.wp with
  | drops _ run =>
    obtain rfl := Host.Outcome.next.inj ((run s rfl).symm.trans h)
    exact run _ rfl
  | appends _ kind _ _ => exact absurd ((by decide : [Opcode.start, Opcode.build, Opcode.chk] ⊆ _) hop) kind
  | beginsFrame _ _ run | buildsFrame _ _ _ run =>
    obtain rfl := Host.Outcome.next.inj ((run s).symm.trans h)
    exact run _
  | appendsChecksum kind _ _ =>
    rw [kind] at hop
    exact absurd hop (by decide)
  | checksFrame _ _ run =>
    obtain ⟨bs, hbs, rfl⟩ := (withPrefix_next_iff _ _ _ _).1 ((run s rfl).symm.trans h)
    exact (run (setAcc (cksum bs) s) rfl).trans ((withPrefix_next_iff _ _ _ _).2 ⟨bs, hbs, rfl⟩)

end Sys2Proof.Machine

end

/-! # Proofs: the field as a function of the operand (R60, R61, R90 to R96, R104) -/

section

namespace Sys2Proof.Machine

/-! ### Truncation toward zero (R9) -/

theorem trunc_neg (q : ℚ) : trunc (-q) = -trunc q := by
  rcases le_total 0 q with h | h
  · rw [trunc_neg_of_nonneg h, trunc_of_nonneg h]
  · rw [trunc_of_nonneg (neg_nonneg.2 h), ← neg_neg q, trunc_neg_of_nonneg (neg_nonneg.2 h), neg_neg, neg_neg]

@[simp] theorem trunc_intCast (n : ℤ) : trunc (n : ℚ) = n := by
  rw [trunc, Int.floor_intCast, Int.ceil_intCast, ite_self]

/-- Truncation moves by less than one. -/
theorem abs_trunc_sub_lt_one (q : ℚ) : |(trunc q : ℚ) - q| < 1 := by
  rw [abs_lt, trunc]
  split
  · constructor <;> linarith [Int.floor_le q, Int.lt_floor_add_one q]
  · constructor <;> linarith [Int.le_ceil q, Int.ceil_lt_add_one q]

/-- Truncation never moves away from zero. -/
theorem abs_trunc_le (q : ℚ) : |(trunc q : ℚ)| ≤ |q| := by
  have nonneg : ∀ p : ℚ, 0 ≤ p → |(trunc p : ℚ)| ≤ |p| := by
    intro p hp
    rw [trunc_of_nonneg hp, abs_of_nonneg hp, abs_of_nonneg (by exact_mod_cast Int.floor_nonneg.2 hp)]
    exact Int.floor_le p
  rcases le_total 0 q with h | h
  · exact nonneg q h
  · rw [← abs_neg, ← abs_neg q, ← Int.cast_neg, ← trunc_neg]
    exact nonneg (-q) (neg_nonneg.2 h)

theorem trunc_mono {p q : ℚ} (h : p ≤ q) : trunc p ≤ trunc q := by
  unfold trunc
  split <;> split
  · exact Int.floor_mono h
  · linarith
  · exact (Int.ceil_le.2 (by push_cast; linarith)).trans (Int.floor_nonneg.2 ‹0 ≤ q›)
  · exact Int.ceil_mono h

/-- What is less than one in magnitude is truncated to zero. -/
theorem trunc_eq_zero {q : ℚ} (h : |q| < 1) : trunc q = 0 := by
  have hlt : |(trunc q : ℚ)| < 1 := (abs_trunc_le q).trans_lt h
  exact Int.abs_lt_one_iff.1 (by exact_mod_cast hlt)

/-! ### The field of an exact product (R90, R91) -/

theorem scale_pos (kind : FpKind) : (0 : ℚ) < Config.scale kind := by
  rw [scale_eq]
  positivity

/-- Settles O22. The cases of R96 are in `mag24_eq_floor` and `fpField_eq_signed_mag24`, on which this rests. -/
theorem fieldProcedureMatchesExactProduct : Obligations.FieldProcedureMatchesExactProduct :=
  fun _ _ => fpField_eq_to24_scaledValue

/-- The field of an operand by the value of its scaled product. -/
theorem fpField_of_product {kind : FpKind} {d : Bits64} {q : ℚ} (hd : Covered kind d)
    (hq : real d * (Config.scale kind : ℚ) = q) : fpField kind d = to24 (trunc q) := by
  rw [fpField_eq_to24_scaledValue hd, scaledValue, hq]

/-- A product far below the range of binary64 is finite. -/
theorem covered_of_product {kind : FpKind} {d : Bits64} {q : ℚ} (hfin : fpFinite d = true)
    (hq : real d * (Config.scale kind : ℚ) = q) (hsmall : |q| ≤ 2) : Covered kind d := by
  have hmag : |real d| * (Config.scale kind : ℚ) = |q| := by rw [← hq, abs_mul, Nat.abs_cast]
  refine ⟨hfin, ?_⟩
  rw [hmag]
  exact hsmall.trans_lt (lt_self_pow₀ one_lt_two (by decide))

/-- Settles O26: each corner is the truncation of a product of at most two units. -/
theorem truncationIsTowardZero : Obligations.TruncationIsTowardZero := by
  have corner : ∀ {kind d} (q : ℚ) (z : ℤ), fpFinite d = true → |q| ≤ 2 → trunc q = z →
      real d * (Config.scale kind : ℚ) = q → fpField kind d = to24 z := by
    rintro kind d q z hfin hsmall rfl hq
    exact fpField_of_product (covered_of_product hfin hq hsmall) hq
  refine ⟨fun kind d hfin hlt => ?_, fpField_of_exp_zero, fun kind d hfin hq => ?_, fun kind d hfin hq => ?_,
    fun kind d hfin hq => ?_⟩
  · have hq : |real d * (Config.scale kind : ℚ)| < 1 := by rwa [abs_mul, Nat.abs_cast]
    exact corner _ 0 hfin (hq.le.trans one_le_two) (trunc_eq_zero hq) rfl
  · exact corner 1 1 hfin (by norm_num) (by exact_mod_cast trunc_intCast 1) hq
  · exact corner (-1) (-1) hfin (by norm_num) (by exact_mod_cast trunc_intCast (-1)) hq
  · have hceil : trunc (-3 / 2) = -1 := by norm_num [trunc]
    exact corner (-3 / 2) (-1) hfin (by norm_num [abs_le]) hceil hq

/-! ### Negation (R104 item 1) -/

/-- Flipping bit 63 leaves the slices below it. -/
theorem fpNeg_extractLsb' (d : Bits64) {lo len : Nat} (h : lo + len ≤ 63) :
    (fpNeg d).extractLsb' lo len = d.extractLsb' lo len := by
  apply BitVec.eq_of_getLsbD_eq
  intro i hi
  have hlow : (1#64 <<< 63).getLsbD (lo + i) = false := by
    rw [BitVec.getLsbD_shiftLeft, decide_eq_true (by omega : lo + i < 63), Bool.not_true, Bool.and_false,
      Bool.false_and]
  rw [BitVec.getLsbD_extractLsb', BitVec.getLsbD_extractLsb', fpNeg, BitVec.getLsbD_xor, hlow, Bool.xor_false]

theorem fpExp_fpNeg (d : Bits64) : fpExp (fpNeg d) = fpExp d := by
  rw [fpExp, fpNeg_extractLsb' d (by decide), fpExp]

theorem fpFrac_fpNeg (d : Bits64) : fpFrac (fpNeg d) = fpFrac d := by
  rw [fpFrac, fpNeg_extractLsb' d (by decide), fpFrac]

theorem fpSign_fpNeg (d : Bits64) : fpSign (fpNeg d) = !fpSign d := by
  simp [fpSign, fpNeg]

theorem real_fpNeg (d : Bits64) : real (fpNeg d) = -real d := by
  rw [real, real, fpSign_fpNeg, fpExp_fpNeg, fpFrac_fpNeg, ← neg_mul]
  congr 1
  cases fpSign d <;> simp

/-- The low 24 bits of an integer's two's complement do not depend on its width. -/
theorem intField_ofInt (z : ℤ) : intField (BitVec.ofInt 32 z) = to24 z := by
  rw [intField, extractLsb'_eq_to24_toInt _ (by decide), BitVec.toInt_ofInt]
  apply to24_congr
  have := Int.bmod_emod (x := z) (m := 2 ^ 32)
  omega

/-- Settles O27: `fpNeg` negates the operand's value and keeps it covered; truncation and `to24` commute with
negation. -/
theorem negationNegatesTheField : Obligations.NegationNegatesTheField := by
  refine ⟨fun kind d hd => ?_, fun z => intField_ofInt (-z)⟩
  have hneg : Covered kind (fpNeg d) := by rwa [covered_iff, fpExp_fpNeg, ← covered_iff]
  have hq : real (fpNeg d) * (Config.scale kind : ℚ) = -(real d * Config.scale kind) := by
    rw [real_fpNeg, neg_mul]
  rw [fpField_of_product hneg hq, fpField_of_product hd rfl, trunc_neg, to24, BitVec.ofInt_neg]

/-! ### Exact multiples, the period and large operands (R104 items 2 to 4) -/

/-- Settles O28: an integer product is its own truncation, and `2^24` units more are `2^24` more in it. -/
theorem exactMultiplesAndPeriod : Obligations.ExactMultiplesAndPeriod := by
  have exact_multiple : ∀ kind d (n : ℤ), Covered kind d → real d * (Config.scale kind : ℚ) = n →
      fpField kind d = to24 n := by
    intro kind d n hd hn
    rw [fpField_of_product hd hn, trunc_intCast]
  refine ⟨exact_multiple, fun kind d d' n hd hd' hn hperiod => ?_⟩
  have hn' : real d' * (Config.scale kind : ℚ) = (n + 2 ^ 24 : ℤ) := by
    rw [hperiod, add_mul, hn, div_mul_cancel₀ _ (scale_pos kind).ne']
    push_cast
    rfl
  rw [exact_multiple kind d n hd hn, exact_multiple kind d' _ hd' hn']
  exact to24_congr (by omega)

/-- A 53-bit significand reaches `2^76` only when it is shifted 24 places or more to the left. -/
theorem unitExp_of_le_scaledMagnitude {kind : FpKind} {d : Bits64} (h : 2 ^ 76 ≤ scaledMagnitude kind d) :
    24 ≤ fpUnitExp d + Config.scaleExp kind := by
  by_contra hlt
  have hsig : (fpSignificand d : ℚ) < 2 ^ 53 := by exact_mod_cast fpSignificand_lt d
  have hexp : fpUnitExp d + Config.scaleExp kind ≤ 23 := by omega
  have hsmall : scaledMagnitude kind d < 2 ^ 76 := by
    calc scaledMagnitude kind d
        ≤ fpSignificand d * 2 ^ (23 : ℤ) :=
          mul_le_mul_of_nonneg_left (zpow_le_zpow_right₀ one_le_two hexp) (Nat.cast_nonneg _)
      _ < 2 ^ 53 * 2 ^ (23 : ℤ) := mul_lt_mul_of_pos_right hsig (by positivity)
      _ = 2 ^ 76 := by norm_num
  exact absurd h (not_le.2 hsmall)

/-- Settles O29: the shift of such an operand leaves none of the low 24 bits. -/
theorem largeOperandsEncodeToZero : Obligations.LargeOperandsEncodeToZero := by
  intro kind d hd hlarge
  have hmag : 2 ^ 76 ≤ scaledMagnitude kind d := by
    rw [← abs_real_mul_scale, scale_eq]
    calc (2 : ℚ) ^ 76
        = 2 ^ (76 - Config.scaleExp kind) * 2 ^ Config.scaleExp kind := by
          rw [← pow_add, Nat.sub_add_cancel ((scaleExp_le kind).trans (by decide))]
      _ ≤ |real d| * ((2 ^ Config.scaleExp kind : ℕ) : ℚ) := by
          push_cast
          exact mul_le_mul_of_nonneg_right hlarge (by positivity)
  have hzero : ∀ m, mag24 m (fpUnitExp d + Config.scaleExp kind) = 0 :=
    fun m => if_pos (unitExp_of_le_scaledMagnitude hmag)
  rw [fpField_eq_signed_mag24 ((covered_iff kind d).1 hd), hzero]
  split <;> rfl

/-! ### Inside the signed range (R61, R104 item 5) -/

/-- Inside the signed range the field reads back as the scaled value. -/
theorem fpField_toInt {kind : FpKind} {d : Bits64} (hd : Covered kind d) (hlo : -8388608 ≤ scaledValue kind d)
    (hhi : scaledValue kind d ≤ 8388607) : (fpField kind d).toInt = scaledValue kind d := by
  rw [fpField_eq_to24_scaledValue hd]
  exact BitVec.toInt_ofInt_eq_self (by decide) (by omega) (by omega)

/-- Settles O30: scaling and truncation are monotonic, so that the premises keep both operands in range. -/
theorem fieldIsMonotonicInRange : Obligations.FieldIsMonotonicInRange := by
  intro kind d d' hd hd' hlo hhi hle
  have hmono : scaledValue kind d ≤ scaledValue kind d' :=
    trunc_mono (mul_le_mul_of_nonneg_right hle (scale_pos kind).le)
  rwa [fpField_toInt hd hlo (hmono.trans hhi), fpField_toInt hd' (hlo.trans hmono) hhi]

/-- Settles O31: the bounds of truncation, in units of the scale. -/
theorem fieldRepresentsOperandWithinOneUnit : Obligations.FieldRepresentsOperandWithinOneUnit := by
  intro kind d hd hlo hhi
  have hpos := scale_pos kind
  have hreal : real d = real d * Config.scale kind / Config.scale kind := (mul_div_cancel_right₀ _ hpos.ne').symm
  rw [fieldValue, fpField_toInt hd hlo hhi, scaledValue]
  constructor
  · nth_rw 2 [hreal]
    rw [← sub_div, abs_div, abs_of_pos hpos]
    exact div_lt_div_of_pos_right (abs_trunc_sub_lt_one _) hpos
  · nth_rw 2 [hreal]
    rw [abs_div, abs_div]
    exact div_le_div_of_nonneg_right (abs_trunc_le _) (abs_nonneg _)

end Sys2Proof.Machine

end

/-! # Proofs: the checksum function (R130 to R136) -/

section

namespace Sys2Proof.Machine

/-! ### Closed forms (R131) -/

/-- The accumulator of R130 is its start less the sum of the signed bytes. -/
theorem cksumAcc_eq (bs : List Byte) : cksumAcc bs = 64 - (bs.map BitVec.toInt).sum := by
  induction bs using List.reverseRecOn with
  | nil => rfl
  | append_singleton bs b ih =>
    rw [cksumAcc_concat, ih, List.map_append, List.sum_append, List.map_singleton, List.sum_singleton]
    omega

/-- The signed and the unsigned reading of the bytes have the same sum modulo 256. -/
theorem sum_toInt_emod (bs : List Byte) :
    (bs.map BitVec.toInt).sum % 256 = ((bs.map BitVec.toNat).sum : ℤ) % 256 := by
  induction bs with
  | nil => rfl
  | cons b bs ih =>
    have hb : b.toInt % 256 = (b.toNat : ℤ) % 256 := by
      rw [BitVec.toInt_eq_toNat_bmod]
      exact Int.bmod_emod
    rw [List.map_cons, List.map_cons, List.sum_cons, List.sum_cons, Nat.cast_add]
    omega

theorem cksum_eq_signed (bs : List Byte) : cksum bs = to8 (64 - (bs.map BitVec.toInt).sum) := by
  rw [cksum_eq_to8, cksumAcc_eq]

theorem cksum_eq_unsigned (bs : List Byte) : cksum bs = to8 (64 - ((bs.map BitVec.toNat).sum : Nat)) := by
  rw [cksum_eq_signed]
  apply to8_congr
  have := sum_toInt_emod bs
  omega

/-- Settles O32: the accumulator is 64 less the signed sum, and the unsigned sum differs by multiples of 256. -/
theorem checksumClosedForm : Obligations.ChecksumClosedForm := fun bs => ⟨cksum_eq_signed bs, cksum_eq_unsigned bs⟩

/-! ### Other accumulators (R132) -/

/-- One more byte at the end is one more wrapping subtraction. -/
theorem cksum_concat (bs : List Byte) (b : Byte) : cksum (bs ++ [b]) = cksum bs - b := by
  rw [cksum_eq_to8, cksum_eq_to8, cksumAcc_concat, Int.sub_eq_add_neg, to8, BitVec.ofInt_add, BitVec.ofInt_neg,
    BitVec.ofInt_toInt, ← BitVec.sub_eq_add_neg]

theorem cksumWrapping_eq (bs : List Byte) : cksumWrapping bs = cksum bs := by
  induction bs using List.reverseRecOn with
  | nil => rfl
  | append_singleton bs b ih =>
    rw [cksum_concat, ← ih, cksumWrapping, cksumWrapping, List.foldl_concat]

/-- Each byte moves the accumulator by a signed 8-bit value. -/
theorem cksumAcc_bounds (bs : List Byte) :
    64 - 127 * (bs.length : ℤ) ≤ cksumAcc bs ∧ cksumAcc bs ≤ 64 + 128 * (bs.length : ℤ) := by
  induction bs using List.reverseRecOn with
  | nil => decide
  | append_singleton bs b ih =>
    have hlo : -128 ≤ b.toInt := BitVec.le_toInt b
    have hhi : b.toInt < 128 := BitVec.toInt_lt
    rw [cksumAcc_concat, List.length_append, List.length_singleton]
    omega

/-- Settles O33: both accumulators subtract byte by byte, a sum does not depend on the order, and 29 bytes move it 29
times. -/
theorem checksumAccumulatorsAgree : Obligations.ChecksumAccumulatorsAgree := by
  refine ⟨cksumWrapping_eq, fun bs cs h => ?_, fun bs hlen => ?_⟩
  · rw [cksum_eq_signed, cksum_eq_signed, (h.map BitVec.toInt).sum_eq]
  · have := cksumAcc_bounds bs
    omega

/-! ### Self-checking sequences and what they detect (R135, R136) -/

/-- A sequence has checksum 0 exactly when its last byte is the checksum of those before it. -/
theorem cksum_concat_eq_zero_iff (bs : List Byte) (b : Byte) : cksum (bs ++ [b]) = 0x00#8 ↔ b = cksum bs := by
  rw [cksum_concat, eq_comm (a := b)]
  exact sub_eq_zero

/-- Settles O34: a sequence of 29 bytes is its first 28 and one more. -/
theorem checksumMakesFrameSelfChecking : Obligations.ChecksumMakesFrameSelfChecking := by
  refine ⟨cksum_concat_cksum, fun g hg => ?_⟩
  have hlast : g[28]? = some g[28] := List.getElem?_eq_getElem (by omega)
  have hsplit : g.take 28 ++ [g[28]] = g := by rw [List.take_append_getElem, List.take_of_length_le hg.le]
  rw [hlast, Option.some.injEq, ← cksum_concat_eq_zero_iff, hsplit]

/-- A sequence has checksum 0 exactly when its byte sum is 64 modulo 256. -/
theorem cksum_eq_zero_iff (bs : List Byte) : cksum bs = 0x00#8 ↔ (bs.map BitVec.toNat).sum % 256 = 64 := by
  have hval : ((cksum bs).toNat : ℤ) = (64 - ((bs.map BitVec.toNat).sum : ℤ)) % 256 := by
    rw [cksum_eq_unsigned, toNat_to8]
  rw [← BitVec.toNat_inj]
  change (cksum bs).toNat = 0 ↔ _
  omega

/-- Replacing one byte of a sequence changes the byte sum by the difference. -/
theorem sum_toNat_set {g : List Byte} {i : Nat} (hi : i < g.length) (v : Byte) :
    ((g.set i v).map BitVec.toNat).sum + g[i].toNat = (g.map BitVec.toNat).sum + v.toNat := by
  have hg : g = g.take i ++ g[i] :: g.drop (i + 1) := by
    rw [List.getElem_cons_drop, List.take_append_drop]
  have hset : g.set i v = g.take i ++ v :: g.drop (i + 1) := by
    rw [List.set_eq_take_append_cons_drop, if_pos hi]
  have hsum : (g.map BitVec.toNat).sum = ((g.take i ++ g[i] :: g.drop (i + 1)).map BitVec.toNat).sum := by
    rw [← hg]
  rw [hset, hsum]
  simp only [List.map_append, List.map_cons, List.sum_append, List.sum_cons]
  omega

/-- Settles O35: checksum 0 fixes the byte sum modulo 256, and one byte changed moves it by less than 256. -/
theorem checksumDetectsSumChanges : Obligations.ChecksumDetectsSumChanges := by
  refine ⟨fun g h _ _ hg => ?_, fun g i v hlen hi hg hv hset => ?_⟩
  · rw [cksum_eq_zero_iff] at hg ⊢
    rw [hg]
  · rw [cksum_eq_zero_iff] at hg hset
    have hi' : i < g.length := by omega
    have hsum := sum_toNat_set hi' v
    have hsame : g[i] = v := by bv_omega
    exact hv (by rw [List.getElem?_eq_getElem hi', hsame])

end Sys2Proof.Machine

end

/-! # Proofs: what the assembler writes (R72 to R74) -/

section

namespace Sys2Proof.Machine

/-! ### The form of assembled commands (R69, R73) -/

/-- The low 32 bits of a sign extension are the integer that was extended. -/
theorem extractLsb'_signExtend (x : Bits32) : (x.signExtend 64).extractLsb' 0 32 = x := by
  apply BitVec.eq_of_getLsbD_eq
  intro j hj
  have hj' : j < 64 := by omega
  rw [BitVec.getLsbD_extractLsb', BitVec.getLsbD_signExtend]
  simp [hj, hj']

/-- The upper half of a sign extension copies bit 31. -/
theorem getLsbD_signExtend_upper (x : Bits32) {j : Nat} (hlo : 32 ≤ j) (hhi : j < 64) :
    (x.signExtend 64).getLsbD j = (x.signExtend 64).getLsbD 31 := by
  rw [BitVec.getLsbD_signExtend, BitVec.getLsbD_signExtend, if_neg (by omega), if_pos (by decide),
    BitVec.msb_eq_getLsbD_last, decide_eq_true hhi]
  rfl

theorem assemblerForm_asmEncint (v : ℤ) : (asmEncint v).assemblerForm = true := by
  have hlow : ((BitVec.ofInt 32 v).signExtend 64).setWidth 32 = BitVec.ofInt 32 v := by
    rw [BitVec.setWidth_eq_extractLsb' (by decide), extractLsb'_signExtend]
  rw [asmEncint, Instr.assemblerForm, hlow]
  exact beq_self_eq_true _

/-- All commands of a list have the assembler's form. -/
def AllAssemblerForm (is : List Instr) : Prop := ∀ i ∈ is, i.assemblerForm = true

theorem allAssemblerForm_nil : AllAssemblerForm [] := fun _ h => nomatch h

theorem allAssemblerForm_cons {i : Instr} {is : List Instr} :
    AllAssemblerForm (i :: is) ↔ i.assemblerForm = true ∧ AllAssemblerForm is :=
  List.forall_mem_cons

theorem allAssemblerForm_singleton {i : Instr} (h : i.assemblerForm = true) : AllAssemblerForm [i] :=
  allAssemblerForm_cons.2 ⟨h, allAssemblerForm_nil⟩

/-- The expansion of `FRAME` (R74): its operand bits that nobody reads are those of `ENCINT`, `RSVD` and `CSUM`. -/
theorem allAssemblerForm_asmFrame (cam : ℤ) (pitch yaw roll x y z : Bits64) (zoom focus : ℤ) :
    AllAssemblerForm (asmFrame cam pitch yaw roll x y z zoom focus) := by
  simp only [asmFrame, allAssemblerForm_cons]
  exact ⟨rfl, rfl, rfl, rfl, rfl, rfl, rfl, assemblerForm_asmEncint zoom, assemblerForm_asmEncint focus, rfl, rfl,
    allAssemblerForm_nil⟩

/-- What nine operands assemble to comes from nine operand values. -/
theorem nineOperands_eq_some {ops : List (List Char)} {is : List Instr}
    {k : ℤ → Bits64 → Bits64 → Bits64 → Bits64 → Bits64 → Bits64 → ℤ → ℤ → List Instr}
    (h : nineOperands ops k = some is) : ∃ c p w r x y z zm fc, is = k c p w r x y z zm fc := by
  unfold nineOperands at h
  split at h
  · simp only [Option.bind_eq_bind, Option.bind_eq_some_iff, Option.pure_def, Option.some.injEq] at h
    obtain ⟨c, -, p, -, w, -, r, -, x, -, y, -, z, -, zm, -, fc, -, rfl⟩ := h
    exact ⟨c, p, w, r, x, y, z, zm, fc, rfl⟩
  · cases h

/-- What one operand assembles to comes from the value of its literal. -/
theorem oneOperand_eq_some {α : Type} {literal : List Char → Option α} {k : α → List Instr}
    {ops : List (List Char)} {is : List Instr} (h : (match ops with | [a] => (literal a).map k | _ => none) = some is) :
    ∃ v, is = k v := by
  split at h
  · obtain ⟨v, -, rfl⟩ := Option.map_eq_some_iff.1 h
    exact ⟨v, rfl⟩
  · cases h

/-- Every mnemonic assembles to commands in the assembler's form. -/
theorem assembleOp_assemblerForm {mnemonic : List Char} {ops : List (List Char)} {is : List Instr}
    (h : assembleOp mnemonic ops = some is) : AllAssemblerForm is := by
  unfold assembleOp at h
  split_ifs at h
  -- `START`, `ENCROT`, `ENCPOS`
  iterate 3
    · obtain ⟨v, rfl⟩ := oneOperand_eq_some h
      exact allAssemblerForm_singleton rfl
  -- `ENCINT`
  · obtain ⟨v, rfl⟩ := oneOperand_eq_some h
    exact allAssemblerForm_singleton (assemblerForm_asmEncint v)
  -- `RSVD`, `CSUM`, `CHK`
  iterate 3
    · obtain rfl := Option.some.inj h
      exact allAssemblerForm_singleton rfl
  -- `BUILD`
  · obtain ⟨c, p, w, r, x, y, z, zm, fc, rfl⟩ := nineOperands_eq_some h
    exact allAssemblerForm_singleton rfl
  -- `FRAME`
  · obtain ⟨c, p, w, r, x, y, z, zm, fc, rfl⟩ := nineOperands_eq_some h
    exact allAssemblerForm_asmFrame c p w r x y z zm fc

/-- Settles O12: a line is blank or one mnemonic, and `ENCINT` sign-extends its integer. -/
theorem assemblerWritesAssemblerForm : Obligations.AssemblerWritesAssemblerForm := by
  refine ⟨fun v => ⟨_, rfl, extractLsb'_signExtend _, fun j => getLsbD_signExtend_upper _⟩, fun line is h => ?_⟩
  simp only [assembleLine] at h
  split at h
  · obtain rfl := Option.some.inj h
    exact allAssemblerForm_nil
  · exact assembleOp_assemblerForm h

end Sys2Proof.Machine

end

/-! # Proofs: FRAME, command by command, ends as BUILD does (R74, R113) -/

section

namespace Sys2Proof.Machine

/-! ### Appending in parts -/

theorem Memory.writeSeq_append (m : Memory) (a : Nat) (bs cs : List Byte) :
    m.writeSeq a (bs ++ cs) = (m.writeSeq a bs).writeSeq (a + bs.length) cs := by
  induction bs generalizing m a with
  | nil => rfl
  | cons b bs ih =>
    rw [List.cons_append, Memory.writeSeq, Memory.writeSeq, ih, List.length_cons, Nat.add_assoc, Nat.add_comm 1]

/-- Two sequences appended one after the other are their concatenation appended. -/
theorem append_append {bs : List Byte} {s : State} (room : s.wp.toNat + bs.length ≤ 29) (cs : List Byte) :
    append cs (append bs s) = append (bs ++ cs) s := by
  have hbuf : (append cs (append bs s)).buf = (append (bs ++ cs) s).buf := by
    rw [append_buf, append_wp_toNat bs s room, append_buf, append_buf, Memory.writeSeq_append]
  have hwp : (append cs (append bs s)).wp = (append (bs ++ cs) s).wp := by
    rw [append_wp, append_wp, append_wp, List.length_append, BitVec.ofNat_add, BitVec.add_assoc]
  unfold append at hbuf hwp ⊢
  rw [State.mk.injEq]
  exact ⟨hbuf, hwp, rfl, rfl, rfl, rfl, rfl, rfl⟩

/-- A frame begun in `s`, with the bytes `bs` appended so far. -/
def begunWith (bs : List Byte) (s : State) : State := append bs (beginFrame s)

theorem begunWith_wp_toNat {bs : List Byte} (hlen : bs.length ≤ 29) (s : State) :
    (begunWith bs s).wp.toNat = bs.length := by
  have h := append_wp_toNat bs (beginFrame s) (by rwa [beginFrame_wp, BitVec.toNat_zero, Nat.zero_add])
  rwa [beginFrame_wp, BitVec.toNat_zero, Nat.zero_add] at h

theorem append_begunWith {bs : List Byte} (hlen : bs.length ≤ 29) (cs : List Byte) (s : State) :
    append cs (begunWith bs s) = begunWith (bs ++ cs) s :=
  append_append (by rwa [beginFrame_wp, BitVec.toNat_zero, Nat.zero_add]) cs

/-- The bytes appended so far are what the checksum engine reads. -/
theorem begunWith_readSeq (bs : List Byte) (s : State) : (begunWith bs s).buf.readSeq 0 bs.length = some bs :=
  Memory.readSeq_eq_some fun i _ => by rw [Nat.zero_add, begunWith, append_beginFrame_read]

/-! ### A program on the command port, one command a step -/

/-- A run whose first step goes on is the run from the state that it answers. -/
theorem run_succ_of_step {M : Host.Core} {s t : M.State} (h : M.step s = .next t) (k : Nat) :
    M.run (k + 1) s = M.run k t := by
  rw [Host.Core.run, h]

/-- The first command of a program runs on the state in which the rest of the program is still to come. -/
theorem run_withProgram_cons {i : Instr} {is : List Instr} {s t : State} (k : Nat)
    (h : exec i (s.withProgram is) = .next t) :
    Sys2Proof.core.run (k + 1) (s.withProgram (i :: is)) = Sys2Proof.core.run k t := by
  have hstep : Sys2Proof.core.step (s.withProgram (i :: is)) = .next t :=
    (step_of_pending_command (s := s.withProgram (i :: is)) rfl (decode_encode i)).trans h
  exact run_succ_of_step hstep k

/-- `START` leaves a frame begun with the marker and the camera byte. -/
theorem run_start (opd : Bits64) (is : List Instr) (s : State) (k : Nat) :
    Sys2Proof.core.run (k + 1) (s.withProgram (.start opd :: is)) =
      Sys2Proof.core.run k ((begunWith [Config.marker, cameraByte opd] s).withProgram is) :=
  run_withProgram_cons k rfl

/-- `i` is a field command for the field `f`. -/
def IsFieldCommand (i : Instr) (f : Bits24) : Prop := ∀ s, exec i s = .next (appendField f s)

/-- A field command at a field offset of a begun frame. -/
theorem run_field {i : Instr} {f : Bits24} (hi : IsFieldCommand i f) {bs : List Byte}
    (hlen : bs.length ∈ [2, 5, 8, 11, 14, 17, 20, 23]) (is : List Instr) (s : State) (k : Nat) :
    Sys2Proof.core.run (k + 1) ((begunWith bs s).withProgram (i :: is)) =
      Sys2Proof.core.run k ((begunWith (bs ++ be3 f) s).withProgram is) := by
  have hroom : bs.length ≤ 29 := (Nat.le_add_right _ 3).trans (fieldOffset_room hlen)
  have hoffset : ((begunWith bs s).withProgram is).wp.toNat ∈ [2, 5, 8, 11, 14, 17, 20, 23] := by
    change (begunWith bs s).wp.toNat ∈ _
    rwa [begunWith_wp_toNat hroom]
  have hrun : exec i ((begunWith bs s).withProgram is) = .next ((append (be3 f) (begunWith bs s)).withProgram is) := by
    rw [hi, appendField_of_mem hoffset]
    rfl
  rw [run_withProgram_cons k hrun, append_begunWith hroom]

/-- A list of field commands, as long as they start at field offsets: the last of the eight is 23. -/
theorem run_fields {is : List Instr} {fs : List Bits24} (h : List.Forall₂ IsFieldCommand is fs) {bs : List Byte}
    (hfirst : bs.length % 3 = 2) (hlast : bs.length + 3 * fs.length ≤ 26) (rest : List Instr) (s : State) (k : Nat) :
    Sys2Proof.core.run (k + fs.length) ((begunWith bs s).withProgram (is ++ rest)) =
      Sys2Proof.core.run k ((begunWith (bs ++ fs.flatMap be3) s).withProgram rest) := by
  induction h generalizing bs with
  | nil => simp
  | @cons i f is fs hi _ ih =>
    rw [List.length_cons] at hlast
    have hlen : bs.length ∈ [2, 5, 8, 11, 14, 17, 20, 23] := by
      simp only [List.mem_cons, List.not_mem_nil, or_false]
      omega
    have hnext : (bs ++ be3 f).length = bs.length + 3 := by rw [List.length_append, be3_length]
    rw [List.length_cons, ← Nat.add_assoc, List.cons_append, run_field hi hlen, ih (by omega) (by omega),
      List.flatMap_cons, List.append_assoc]

/-- `RSVD` after the fields. -/
theorem run_rsvd {bs : List Byte} (hlen : bs.length = 26) (opd : Bits64) (is : List Instr) (s : State) (k : Nat) :
    Sys2Proof.core.run (k + 1) ((begunWith bs s).withProgram (.rsvd opd :: is)) =
      Sys2Proof.core.run k ((begunWith (bs ++ [0x00#8, 0x00#8]) s).withProgram is) := by
  have hw : (begunWith bs s).wp.toNat = 26 := (begunWith_wp_toNat (by omega) s).trans hlen
  have hrun : exec (.rsvd opd) ((begunWith bs s).withProgram is) =
      .next ((append [0x00#8, 0x00#8] (begunWith bs s)).withProgram is) :=
    exec_rsvd_of_wp (s := (begunWith bs s).withProgram is) hw opd
  rw [run_withProgram_cons k hrun, append_begunWith (by omega)]

/-- `CSUM` after the reserved bytes. -/
theorem run_csum {bs : List Byte} (hlen : bs.length = 28) (opd : Bits64) (is : List Instr) (s : State) (k : Nat) :
    Sys2Proof.core.run (k + 1) ((begunWith bs s).withProgram (.csum opd :: is)) =
      Sys2Proof.core.run k ((setAcc (cksum bs) (begunWith (bs ++ [cksum bs]) s)).withProgram is) := by
  have hw : (begunWith bs s).wp.toNat = 28 := (begunWith_wp_toNat (by omega) s).trans hlen
  have hread : (begunWith bs s).buf.readSeq 0 28 = some bs := hlen ▸ begunWith_readSeq bs s
  have hrun : exec (.csum opd) ((begunWith bs s).withProgram is) =
      .next ((setAcc (cksum bs) (append [cksum bs] (begunWith bs s))).withProgram is) :=
    (exec_csum_of_wp (s := (begunWith bs s).withProgram is) hw opd).trans
      ((withPrefix_next_iff _ _ _ _).2 ⟨bs, hread, rfl⟩)
  rw [run_withProgram_cons k hrun, append_begunWith (by omega)]

/-! ### The whole expansion -/

theorem isFieldCommand_asmEncint (v : ℤ) : IsFieldCommand (asmEncint v) (intField (BitVec.ofInt 32 v)) := by
  intro s
  have hopd : intOperand ((BitVec.ofInt 32 v).signExtend 64) = BitVec.ofInt 32 v := extractLsb'_signExtend _
  rw [asmEncint, exec, execEncint, hopd]

/-- The eight field commands of `FRAME` are those of the frame's fields, in its order (R62, R74). -/
theorem asmFrame_fieldCommands (pitch yaw roll x y z : Bits64) (zoom focus : ℤ) :
    List.Forall₂ IsFieldCommand
      [.encrot pitch, .encrot yaw, .encrot roll, .encpos x, .encpos y, .encpos z, asmEncint zoom, asmEncint focus]
      (frameFields pitch yaw roll x y z (BitVec.ofInt 32 zoom) (BitVec.ofInt 32 focus)) :=
  .cons (fun _ => rfl) <| .cons (fun _ => rfl) <| .cons (fun _ => rfl) <| .cons (fun _ => rfl) <|
    .cons (fun _ => rfl) <| .cons (fun _ => rfl) <| .cons (isFieldCommand_asmEncint zoom) <|
      .cons (isFieldCommand_asmEncint focus) .nil

/-- The bytes before the checksum, in the parts in which `FRAME` appends them. -/
theorem body_eq (cam : Bits32) (pitch yaw roll x y z : Bits64) (zoom focus : Bits32) :
    body cam pitch yaw roll x y z zoom focus =
      [Config.marker, cameraByte cam] ++ (frameFields pitch yaw roll x y z zoom focus).flatMap be3 ++
        [0x00#8, 0x00#8] := by
  simp [body, frameFields]

/-- `BUILD` begins a frame with its 28 bytes and their checksum. -/
theorem exec_build_eq_begunWith (cam : Bits32) (pitch yaw roll x y z : Bits64) (zoom focus : Bits32) (s : State) :
    exec (.build cam pitch yaw roll x y z zoom focus) s =
      .next (setAcc (cksum (body cam pitch yaw roll x y z zoom focus))
        (begunWith (body cam pitch yaw roll x y z zoom focus ++ [cksum (body cam pitch yaw roll x y z zoom focus)])
          s)) := rfl

/-- Beginning a frame and setting `ACC` leave the pending program. -/
theorem setAcc_begunWith_withProgram (v : Byte) (bs : List Byte) (s : State) (is : List Instr) :
    (setAcc v (begunWith bs s)).withProgram is = setAcc v (begunWith bs (s.withProgram is)) := rfl

/-- The expansion run to its end is `BUILD` on the state with nothing pending. -/
theorem run_asmFrame (cam : ℤ) (pitch yaw roll x y z : Bits64) (zoom focus : ℤ) (s : State) :
    Sys2Proof.core.run 11 (s.withProgram (asmFrame cam pitch yaw roll x y z zoom focus)) =
      exec (asmBuild cam pitch yaw roll x y z zoom focus) (s.withProgram []) := by
  have hcam : cameraByte (BitVec.ofInt 64 cam) = cameraByte (BitVec.ofInt 32 cam) :=
    (cameraByte_ofInt (by decide) cam).trans (cameraByte_ofInt (by decide) cam).symm
  have hbody := body_eq (BitVec.ofInt 32 cam) pitch yaw roll x y z (BitVec.ofInt 32 zoom) (BitVec.ofInt 32 focus)
  have hfields := run_fields (asmFrame_fieldCommands pitch yaw roll x y z zoom focus)
    (bs := [Config.marker, cameraByte (BitVec.ofInt 64 cam)]) rfl (Nat.le_refl 26) [.rsvd 0#64, .csum 0#64] s 2
  rw [asmFrame, asmStart, run_start]
  refine hfields.trans ?_
  rw [run_rsvd rfl, hcam, ← hbody, run_csum (body_length ..), setAcc_begunWith_withProgram, asmBuild,
    exec_build_eq_begunWith]
  rfl

/-- Settles O43: the run is `BUILD` on the state with nothing pending, and `BUILD` gives one result from all states. -/
theorem frameExpansionEqualsBuild : Obligations.FrameExpansionEqualsBuild := by
  intro cam pitch yaw roll x y z zoom focus s
  obtain ⟨t, ht, -, -, ⟨htseq, htill⟩, -⟩ := exec_build (BitVec.ofInt 32 cam) pitch yaw roll x y z
    (BitVec.ofInt 32 zoom) (BitVec.ofInt 32 focus) (s.withProgram [])
  obtain ⟨u, hu, -, -, huflags, -⟩ := exec_build (BitVec.ofInt 32 cam) pitch yaw roll x y z
    (BitVec.ofInt 32 zoom) (BitVec.ofInt 32 focus) s
  obtain ⟨hbuf, hwp, hacc⟩ := build_result_unique rfl hu ht
  obtain ⟨hpending, -, hdraws⟩ := commandsKeepHostFields _ _ _ ht
  exact ⟨t, u, (run_asmFrame cam pitch yaw roll x y z zoom focus s).trans ht, hu, hbuf, hwp, hacc, ⟨htseq, htill⟩,
    huflags, hpending, fun hseq hill => ⟨htseq.trans hseq, htill.trans hill, hdraws⟩⟩

end Sys2Proof.Machine

end
